-- ==== Sys2Proof/Word.lean ====
section
/-! DEFINITION. The two machine data types of the core: the 32-bit word and the byte. -/

namespace Sys2Proof

/-- R5, R8 (00_scope.md): a Word is an unsigned 32-bit integer; `+` on it wraps mod 2^32. -/
abbrev Word := BitVec 32

/-- R6 (00_scope.md): a byte is 8 bits. -/
abbrev Byte := BitVec 8

end Sys2Proof
end

