-- ==== Sys2Proof/Syntax.lean ====
section
/-! DEFINITION. The commands of the core, one constructor per row of spec/opcode_table.json. -/

namespace Sys2Proof

/-- R56 (30_encoding.md): the two commands. Neither has an operand field (R62). -/
inductive Instr where
  /-- NOP, R105 (43_driver_commands.md) -/
  | nop
  /-- HASH, R104 (43_driver_commands.md) -/
  | hash
deriving DecidableEq, Repr

end Sys2Proof
end

