-- ==== Sys2Proof/Decode.lean ====
section
/-! DEFINITION. The command decoder and encoder, from the format of R55 to R58 (30_encoding.md). -/

namespace Sys2Proof

/-- Why a command word is illegal, R57 (30_encoding.md). -/
inductive IllegalWord where
  /-- RSVD, bits 31:4, is not 0 -/
  | reservedBits
  /-- RSVD is 0 and OP is one of 0x2 to 0xF -/
  | reservedOp
deriving DecidableEq, Repr

/-- What the decoder answers: R58's NOP and HASH, or its ILLEGAL with the reason. -/
inductive Decoded where
  | command (i : Instr)
  | illegal (why : IllegalWord)
deriving DecidableEq, Repr

/-- The OP field, bits 3:0, R55. -/
def opField (v : Word) : BitVec 4 := v.extractLsb' 0 4

/-- The RSVD field, bits 31:4, R55. -/
def rsvdField (v : Word) : BitVec 28 := v.extractLsb' 4 28

/-- The operation code of a command, R56. -/
def opCode : Instr → BitVec 4
  | .nop => 0x0#4
  | .hash => 0x1#4

/-- R55 to R57: total on every word, with a name for each rejection. -/
def decode (v : Word) : Decoded :=
  if rsvdField v = 0#28 then
    if opField v = opCode .nop then .command .nop
    else if opField v = opCode .hash then .command .hash
    else .illegal .reservedOp
  else .illegal .reservedBits

/-- R55, R56: the word of a command, RSVD = 0 above OP. -/
def encode (i : Instr) : Word := 0#28 ++ opCode i

/-- The decoder on a row's bits: a command is exactly one 32-bit word (R55), so bits above bit 31 belong to no
command. -/
def decodeTableWord (nbits w : Nat) : Option Instr :=
  if w % 2 ^ nbits < 2 ^ 32 then
    match decode (BitVec.ofNat 32 (w % 2 ^ nbits)) with
    | .command i => some i
    | .illegal _ => none
  else none

end Sys2Proof
end

