-- ==== Sys2Proof/Machine/Mix.lean ====
section
/-! DEFINITION. The bit primitives and mixing functions on words: R80 to R83 (41_schedule.md), R89 to R92
(42_compression.md). None can fail (R134, 60_exceptions.md). -/

namespace Sys2Proof.Machine

/-- R80: rotate right within 32 bits, for 0 < n < 32 (the only amounts the core uses). -/
def rotr (x : Word) (n : Nat) : Word := (x >>> n) ||| (x <<< (32 - n))

/-- R81: logical shift right, zero-filled. -/
def shr (x : Word) (n : Nat) : Word := x >>> n

/-- R82: σ0. -/
def sigma0 (x : Word) : Word := rotr x 7 ^^^ rotr x 18 ^^^ shr x 3

/-- R83: σ1. -/
def sigma1 (x : Word) : Word := rotr x 17 ^^^ rotr x 19 ^^^ shr x 10

/-- R89: choice. -/
def ch (e f g : Word) : Word := (e &&& f) ^^^ (~~~e &&& g)

/-- R90: majority. -/
def maj (a b c : Word) : Word := (a &&& b) ^^^ (a &&& c) ^^^ (b &&& c)

/-- R91: Σ0. -/
def bigSigma0 (x : Word) : Word := rotr x 2 ^^^ rotr x 13 ^^^ rotr x 22

/-- R92: Σ1. -/
def bigSigma1 (x : Word) : Word := rotr x 6 ^^^ rotr x 11 ^^^ rotr x 25

end Sys2Proof.Machine
end

