-- ==== Sys2Proof/Machine/Padder.lean ====
section
/-! DEFINITION. The Padder and the Block Splitter as pure functions on byte sequences (40_padder_splitter.md), with
the byte orders of R9 (00_scope.md) and R46 (20_memory.md). -/

namespace Sys2Proof.Machine

/-- R9 (00_scope.md): the big-endian word of four bytes, the first byte most significant. -/
def be32 (b0 b1 b2 b3 : Byte) : Word := b0 ++ b1 ++ b2 ++ b3

/-- R9 (00_scope.md): byte k of `bytes_be32`, the bits 31-8k to 24-8k. -/
def byteBe32 (w : Word) (k : Nat) : Byte := w.extractLsb' (24 - 8 * k) 8

/-- R9 (00_scope.md): the four bytes of a word, most significant first. -/
def bytesBe32 (w : Word) : List Byte := [byteBe32 w 0, byteBe32 w 1, byteBe32 w 2, byteBe32 w 3]

/-- R9 (00_scope.md): byte k of `bytes_be64`, the bits 63-8k to 56-8k. -/
def byteBe64 (v : BitVec 64) (k : Nat) : Byte := v.extractLsb' (56 - 8 * k) 8

/-- R9 (00_scope.md): the eight bytes of a 64-bit value, most significant first. -/
def bytesBe64 (v : BitVec 64) : List Byte := (List.range 8).map (byteBe64 v)

/-- R68: N(l), the number of blocks of the padded message of l bytes. -/
def paddedBlocks (l : Nat) : Nat := (l + 8) / 64 + 1

/-- R68: P(l), the padded length in bytes. -/
def paddedLen (l : Nat) : Nat := 64 * paddedBlocks l

/-- R69, R71: the length field's value, `(8 * l) mod 2^64`. -/
def bitLength (l : Nat) : BitVec 64 := BitVec.ofNat 64 (8 * l)

/-- R69: the padded message. -/
def pad (m : List Byte) : List Byte :=
  m ++ [0x80#8] ++ List.replicate (paddedLen m.length - m.length - 9) 0x00#8 ++ bytesBe64 (bitLength m.length)

/-- R13 (00_scope.md): a block is 64 bytes. -/
abbrev Block := Vector Byte 64

/-- R75: the blocks of a byte sequence whose length is a multiple of 64, left to right. -/
def blocks (q : List Byte) : List Block :=
  (List.range (q.length / 64)).map fun j => Vector.ofFn fun k => q.getD (64 * j + k) 0#8

/-- R75, R77: the Block Splitter; its input must have a positive multiple of 64 bytes, and it fails fast on any
other. -/
def split (q : List Byte) : Option (List Block) :=
  if q.length % 64 = 0 ∧ 0 < q.length then some (blocks q) else none

/-- R76: the sixteen big-endian words of a block. -/
def blockWords (b : Block) : List Word :=
  List.ofFn fun i : Fin 16 => be32 b[4 * i.val] b[4 * i.val + 1] b[4 * i.val + 2] b[4 * i.val + 3]

end Sys2Proof.Machine
end

