-- ==== Sys2Proof/Machine/Schedule.lean ====
section
/-! DEFINITION. The Schedule Expander (41_schedule.md), on the 64-entry schedule of R88. -/

namespace Sys2Proof.Machine

/-- R84: words 0 to 15 become the given words, the others stay. -/
def loadWords (ws : List Word) (W : Vector Word 64) : Vector Word 64 :=
  Vector.ofFn fun i : Fin 64 => if i.val < 16 then ws.getD i.val W[i] else W[i]

/-- R85: the recurrence for word t. -/
def scheduleWord (W : Vector Word 64) (t : Nat) (_ : 16 ≤ t) (h : t < 64) : Word :=
  sigma1 W[t - 2] + W[t - 7] + sigma0 W[t - 15] + W[t - 16]

/-- R85: one step of the expansion, for 16 ≤ t ≤ 63. -/
def scheduleStep (W : Vector Word 64) (t : Nat) : Vector Word 64 :=
  if h : 16 ≤ t ∧ t < 64 then W.set t (scheduleWord W t h.1 h.2) h.2 else W

/-- R85: the first n steps of the expansion, in increasing t from 16. -/
def scheduleSteps (W : Vector Word 64) : Nat → Vector Word 64
  | 0 => W
  | n + 1 => scheduleStep (scheduleSteps W n) (16 + n)

/-- R86: the schedule of a block; it depends on the block alone. -/
def expand (b : Block) : Vector Word 64 :=
  scheduleSteps (loadWords (blockWords b) (Vector.replicate 64 0#32)) 48

end Sys2Proof.Machine
end

