-- ==== Sys2Proof/Config.lean ====
section
/-! DEFINITION. What the platform fixes (the open parameters) and the free values: values the spec leaves open,
constants without a body, so that no proof can see what they are. -/

namespace Sys2Proof

/-- The open parameters of one core, R5 (00_scope.md). -/
structure Params where
  /-- `MSG_MAX_BYTES`, the capacity of the message memory in bytes. -/
  msgMaxBytes : Nat
  /-- `BASE`, the byte address of the register block. -/
  base : Nat
deriving DecidableEq, Repr

/-- R49 (20_memory.md), R112 (43_driver_commands.md), R140 (70_reset_and_hazards.md): who takes the next step. -/
inductive Move where
  /-- the host takes the next step of its program -/
  | host
  /-- the core's sequencer takes its micro-step -/
  | core
  /-- the platform asserts reset -/
  | reset
deriving DecidableEq, Repr, Inhabited

namespace Config

/-- Open (DESIGN CHOICE, log 1, safe): fixes `MSG_MAX_BYTES` through `params`. -/
opaque rawMsgWords : Nat

/-- Open (DESIGN CHOICE, log 1, safe): fixes `BASE` through `params`. -/
opaque rawBasePage : Nat

/-- The platform's parameters at reset: R5 admits exactly the multiples of 4 from 4 to 2^32 - 4096 for
`MSG_MAX_BYTES` and the multiples of 4096 for `BASE`; every such pair is a value of this definition for some raw
values (DESIGN CHOICE, log 1, safe). -/
def params : Params :=
  { msgMaxBytes := 4 * (1 + rawMsgWords % (2 ^ 30 - 1024)), base := 4096 * rawBasePage }

/-- Free value (DESIGN CHOICE, log 2, safe): which agent moves next where the schedule names none; U12
(93_implementation_defined.md). -/
opaque freeMove : Nat → Move

/-- Free value (DESIGN CHOICE, log 6, safe): a DIGESTi read while busy or faulted, R116 (43_driver_commands.md). -/
opaque freeWord : Nat → Word

/-- Free value (DEDUCED, log 7, safe): what an unwritten cell reads as through the window, R44 (20_memory.md), for
the number of resets so far and the cell: the same byte at every read between two resets, R48 (20_memory.md). -/
opaque freeByte : Nat → Nat → Byte

/-- Free value (DESIGN CHOICE, log 21, safe): `PadByte(i)` for `i >= P(l)`, which R79 (40_padder_splitter.md) does not
give, for the latched lengths and i. -/
opaque freePadByte : Word → BitVec 64 → Nat → Byte

end Config

end Sys2Proof
end

