-- ==== Sys2Proof/Machine/State.lean ====
section
/-! DEFINITION. The state of the machine: the core's record of R37 (10_state.md), the host agent, the parameters,
the schedule, and the counter of free values; the ways a step can stop; the state after reset. -/

namespace Sys2Proof.Machine

/-- R33 (10_state.md): the seven sequencer phases. -/
inductive Phase where
  | idle
  | split
  | expand
  | vars
  | round
  | accum
  | faulted
deriving DecidableEq, Repr

/-- R20 (10_state.md): the working variables a..h. -/
structure Vars where
  a : Word
  b : Word
  c : Word
  d : Word
  e : Word
  f : Word
  g : Word
  h : Word
deriving DecidableEq, Repr

/-- R29 (10_state.md): the message memory, the written cells as (index, byte) pairs in rising order of index; an
unlisted cell is unwritten and holds no value (log 7). -/
abbrev Memory := List Host.Cell

/-- R15, R37 (10_state.md): one core's state. -/
structure CoreState where
  /-- hash-state accumulator, R16 -/
  H : Vector Word 8
  /-- message schedule, R19 -/
  W : Vector Word 64
  /-- working variables, R20 -/
  vars : Vars
  /-- message memory MSG, R29 -/
  msg : Memory
  /-- MSG_LEN, R26 -/
  msgLen : Word
  /-- DONE, R23 -/
  done : Bool
  /-- ERR, R24 -/
  err : Bool
  /-- ERRCODE, R24, R60 -/
  errCode : BitVec 4
  /-- FCODE, R25, R130 -/
  fCode : BitVec 4
  /-- sequencer phase, R33 -/
  phase : Phase
  /-- lat_len (l), R31 -/
  latLen : Word
  /-- Lbits (L), R31 -/
  lbits : BitVec 64
  /-- nblk (N), R31 -/
  nblk : Nat
  /-- block index, R32 -/
  j : Nat
  /-- step counter, R32 -/
  t : Nat
  /-- the model's own record of the fault MsgUninit(i), R115 (43_driver_commands.md), R133 (60_exceptions.md) -/
  uninit : Option Nat
deriving DecidableEq, Repr

/-- R64 (30_encoding.md): one step of a host program. `wr` and `rd` name an offset from BASE; `memWrite` and
`memRead` are R38's accesses (20_memory.md) at any byte address and width, those outside the contract included
(R42). A label is a position in the program, so `bnz` names the position it goes to. -/
inductive HostOp where
  | wr (off : Nat) (v : Word)
  | rd (off : Nat) (x : Nat)
  | bnz (x : Nat) (m : Word) (target : Nat)
  | memWrite (addr width : Nat) (v : Word)
  | memRead (addr width : Nat) (x : Nat)
deriving DecidableEq, Repr

/-- R66 (30_encoding.md): one performed bus access, `(R|W, offset, data)`. -/
structure BusTriple where
  isWrite : Bool
  off : Nat
  data : Word
deriving DecidableEq, Repr

/-- The host agent (R14, R64, R66): its program, its position in it, its variables (written ones, by rising number),
and the accesses it has performed, oldest first. -/
structure HostAgent where
  prog : List HostOp
  pc : Nat
  vars : List (Nat × Word)
  log : List BusTriple
deriving DecidableEq, Repr

/-- R40 (20_memory.md): what an offset of the window names. -/
inductive Target where
  | cmd
  | status
  | msgLen
  | caps
  | reserved
  | digest (i : Fin 8)
  | msgWord (k : Nat)
deriving DecidableEq, Repr

/-- The whole machine. -/
structure State where
  /-- the core, R37 -/
  core : CoreState
  /-- the host, R14 -/
  host : HostAgent
  /-- the platform's parameters, R5; no step changes them -/
  params : Params
  /-- who moves in the steps to come, R49; where it is empty the choice is free (log 2) -/
  sched : List Move
  /-- the model's own: how many free values have been drawn (log 8) -/
  draws : Nat
  /-- the model's own: how many times reset has been asserted (log 20) -/
  resets : Nat
deriving DecidableEq, Repr

/-- The model-only faults, R133 (60_exceptions.md). -/
inductive Fault where
  /-- Raised when the core's agent is given a turn after SPLIT recorded MsgUninit(i): it has no further step, R115
  (43_driver_commands.md). Safe: the hardware reads some byte and goes on, and nothing is claimed of that. -/
  | msgUninit (i : Nat)
  /-- Raised by EXPAND with `t` outside 16..63 and by ROUND with `t` above 63, for which R107 and R109
  (43_driver_commands.md) give no effect (log 10). Safe: no run reaches such a state. -/
  | sequencerRange (t : Nat)
deriving DecidableEq, Repr

/-- The refusals. -/
inductive Refusal where
  /-- Raised by exec for an instruction without a meaning; no instruction of this model is. Safe. -/
  | notModelled (mnemonic : String)
  /-- Raised by a bus access that is not 32 bits wide, R42 (20_memory.md), U4. Safe: the spec has the model refuse. -/
  | accessWidth (width : Nat)
  /-- Raised by a bus access at an offset that is no multiple of 4, R42 (20_memory.md), U4. Safe, as above. -/
  | misaligned (off : Nat)
  /-- Raised by a bus access outside the core's window, R39, R42 (20_memory.md), U5. Safe, as above. -/
  | outsideWindow (addr : Nat)
deriving DecidableEq, Repr

/-- R36 (10_state.md), R140 (70_reset_and_hazards.md): the core after reset. R36 leaves `W`, `a..h` and the
sequencer's latches and counters unspecified; the values here are DESIGN CHOICE (log 4, unsafe). -/
def CoreState.reset : CoreState where
  H := Vector.replicate 8 0#32
  W := Vector.replicate 64 0#32
  vars := { a := 0#32, b := 0#32, c := 0#32, d := 0#32, e := 0#32, f := 0#32, g := 0#32, h := 0#32 }
  msg := []
  msgLen := 0#32
  done := false
  err := false
  errCode := 0#4
  fCode := 0#4
  phase := .idle
  latLen := 0#32
  lbits := 0#64
  nblk := 1
  j := 0
  t := 0
  uninit := none

/-- The host before it has a program (DESIGN CHOICE, log 3, log 12). -/
def HostAgent.empty : HostAgent where
  prog := []
  pc := 0
  vars := []
  log := []

/-- The machine right after reset on a platform with parameters `p`. -/
def State.resetWith (p : Params) : State where
  core := CoreState.reset
  host := HostAgent.empty
  params := p
  sched := []
  draws := 0
  resets := 0

/-- The machine right after reset: R36 (10_state.md), with the platform's open parameters (log 1). -/
def State.reset : State := State.resetWith Config.params

end Sys2Proof.Machine
end

