-- ==== Sys2Proof/Machine/Compress.lean ====
section
/-! DEFINITION. The Compressor and the digest (42_compression.md). -/

namespace Sys2Proof.Machine

/-- R94: the working variables are the eight state words, in order. -/
def initVars (H : Vector Word 8) : Vars :=
  { a := H[0], b := H[1], c := H[2], d := H[3], e := H[4], f := H[5], g := H[6], h := H[7] }

/-- R95: T1 of a round with constant k and schedule word w. -/
def temp1 (k w : Word) (v : Vars) : Word := v.h + bigSigma1 v.e + ch v.e v.f v.g + k + w

/-- R95: T2 of a round. -/
def temp2 (v : Vars) : Word := bigSigma0 v.a + maj v.a v.b v.c

/-- R96: one round; all eight variables are replaced at once. -/
def roundStep (k w : Word) (v : Vars) : Vars :=
  { a := temp1 k w v + temp2 v, b := v.a, c := v.b, d := v.c,
    e := v.d + temp1 k w v, f := v.e, g := v.f, h := v.g }

/-- R97: round t reads `W[t]` and `K[t]`; there are 64 rounds. -/
def roundAt (W : Vector Word 64) (t : Nat) (v : Vars) : Vars :=
  if h : t < 64 then roundStep Rom.K[t] W[t] v else v

/-- R97: the first n rounds, in increasing t. -/
def rounds (W : Vector Word 64) (v : Vars) : Nat → Vars
  | 0 => v
  | n + 1 => roundAt W n (rounds W v n)

/-- R98: the accumulator, elementwise in positional order. -/
def accumulate (H : Vector Word 8) (v : Vars) : Vector Word 8 :=
  #v[H[0] + v.a, H[1] + v.b, H[2] + v.c, H[3] + v.d, H[4] + v.e, H[5] + v.f, H[6] + v.g, H[7] + v.h]

/-- R99: one block's compression. -/
def compress (H : Vector Word 8) (W : Vector Word 64) : Vector Word 8 :=
  accumulate H (rounds W (initVars H) 64)

/-- R100: the fold over blocks, from any state. -/
def foldBlocks (S : Vector Word 8) (bs : List Block) : Vector Word 8 :=
  bs.foldl (fun H b => compress H (expand b)) S

/-- R100: the digest of a message. -/
def sha256 (m : List Byte) : Vector Word 8 := foldBlocks Rom.H0 (blocks (pad m))

/-- R120 (43_driver_commands.md): the digest as 32 bytes. -/
def digestBytes (H : Vector Word 8) : List Byte := H.toList.flatMap bytesBe32

/-- R121 (43_driver_commands.md): one hex digit, lowercase. -/
def hexDigit (n : BitVec 4) : Char :=
  ['0', '1', '2', '3', '4', '5', '6', '7', '8', '9', 'a', 'b', 'c', 'd', 'e', 'f'].getD n.toNat '0'

/-- R121 (43_driver_commands.md): the eight digits of a word, from bit 31 down. -/
def hex8 (w : Word) : List Char := (List.range 8).map fun k => hexDigit (w.extractLsb' (28 - 4 * k) 4)

/-- R121 (43_driver_commands.md): the host's hex string of a digest, as its list of characters. -/
def hex (H : Vector Word 8) : List Char := H.toList.flatMap hex8

end Sys2Proof.Machine
end

