-- ==== Sys2Proof/Machine/Flags.lean ====
section
/-! DEFINITION. The status bits and the STATUS word: R22 to R25, R34 (10_state.md), R59, R60 (30_encoding.md). -/

namespace Sys2Proof.Machine

namespace ErrCode

/-- R60: no error. -/
def noError : BitVec 4 := 0x0#4
/-- R60, R124 (60_exceptions.md). -/
def illegalCmd : BitVec 4 := 0x1#4
/-- R60, R125 (60_exceptions.md). -/
def cmdWhileBusy : BitVec 4 := 0x2#4
/-- R60, R126 (60_exceptions.md). -/
def lenRange : BitVec 4 := 0x3#4
/-- R60, R130 (60_exceptions.md). -/
def internal : BitVec 4 := 0xF#4

end ErrCode

/-- R34: BUSY is 1 exactly in these five phases. -/
def Phase.busy : Phase → Bool
  | .split => true
  | .expand => true
  | .vars => true
  | .round => true
  | .accum => true
  | .idle => false
  | .faulted => false

/-- R25: FAULT is 1 exactly when the phase is FAULTED. -/
def Phase.fault : Phase → Bool
  | .faulted => true
  | .idle => false
  | .split => false
  | .expand => false
  | .vars => false
  | .round => false
  | .accum => false

/-- R45 (20_memory.md): host writes to MSG_LEN and the message window are ignored while busy or faulted. -/
def CoreState.inputsLocked (c : CoreState) : Bool := c.phase.busy || c.phase.fault

/-- R59: ERR_shown. -/
def errShown (c : CoreState) : Bool := c.phase.fault || c.err

/-- R59: ERRCODE_shown. -/
def errCodeShown (c : CoreState) : BitVec 4 := if c.phase.fault then c.fCode else c.errCode

/-- A one-bit field as a word. -/
def flagWord (b : Bool) : Word := (BitVec.ofBool b).setWidth 32

/-- R59: the STATUS word. -/
def statusWord (c : CoreState) : Word :=
  ((errCodeShown c).setWidth 32 <<< 4) ||| (flagWord c.phase.fault <<< 3) ||| (flagWord (errShown c) <<< 2) |||
    (flagWord c.done <<< 1) ||| flagWord c.phase.busy

end Sys2Proof.Machine
end

