-- ==== Sys2Proof/Machine/Ops.lean ====
section
/-! DEFINITION. The named operations over memory, registers and the host agent: one cell of a sparse table, the
message window, rejecting a command, entering FAULT and leaving it by reset, accepting a command. -/

namespace Sys2Proof.Machine

/-! ## Sparse tables -/

/-- The value at a key, if the table lists one. -/
def cellGet {β : Type} : List (Nat × β) → Nat → Option β
  | [], _ => none
  | (k, v) :: rest, a => if a = k then some v else cellGet rest a

/-- The table with a value at a key; keys stay rising. -/
def cellPut {β : Type} : List (Nat × β) → Nat → β → List (Nat × β)
  | [], a, v => [(a, v)]
  | (k, w) :: rest, a, v =>
    if a < k then (a, v) :: (k, w) :: rest
    else if a = k then (a, v) :: rest
    else (k, w) :: cellPut rest a v

/-- The canonical form of a table: keys strictly rising. -/
abbrev cellsWf {β : Type} (l : List (Nat × β)) : Prop := l.Pairwise fun x y => x.1 < y.1

/-! ## The message memory, R29 (10_state.md) -/

/-- The canonical form of the message memory. An unlisted cell holds no value, so no entry can equal what an
unlisted cell reads as (log 7). -/
abbrev Memory.wf (m : Memory) : Prop := cellsWf m

/-- R29: `MsgByte(i)`; no value where the cell is unwritten. -/
def Memory.read (m : Memory) (i : Nat) : Option Byte := cellGet m i

/-- One cell becomes written. -/
def Memory.write (m : Memory) (i : Nat) (b : Byte) : Memory := cellPut m i b

/-- R43 (20_memory.md): word k of the message window is stored to its four cells, most significant byte first. -/
def Memory.writeWord (m : Memory) (k : Nat) (v : Word) : Memory :=
  (((m.write (4 * k) (byteBe32 v 0)).write (4 * k + 1) (byteBe32 v 1)).write (4 * k + 2) (byteBe32 v 2)).write
    (4 * k + 3) (byteBe32 v 3)

/-- R44 (20_memory.md): a cell as a window read sees it; an unwritten cell reads as a free byte, the same one until it
is written or reset is asserted again (log 7). -/
def Memory.readOrFree (m : Memory) (resets i : Nat) : Byte := (m.read i).getD (Config.freeByte resets i)

/-- R44 (20_memory.md): word k of the message window. -/
def Memory.readWord (m : Memory) (resets k : Nat) : Word :=
  be32 (m.readOrFree resets (4 * k)) (m.readOrFree resets (4 * k + 1)) (m.readOrFree resets (4 * k + 2))
    (m.readOrFree resets (4 * k + 3))

/-! ## Commands -/

/-- R123, R129 (60_exceptions.md): rejecting a command changes ERR and ERRCODE and nothing else. -/
def reject (code : BitVec 4) (c : CoreState) : CoreState := { c with err := true, errCode := code }

/-- R128 (60_exceptions.md): an accepted command clears ERR and ERRCODE. -/
def clearError (c : CoreState) : CoreState := { c with err := false, errCode := ErrCode.noError }

/-- R104 (43_driver_commands.md): the acceptance of HASH, one atomic step with the CMD write (R50,
20_memory.md). -/
def acceptHash (c : CoreState) : CoreState :=
  { clearError c with
    latLen := c.msgLen
    lbits := bitLength c.msgLen.toNat
    nblk := paddedBlocks c.msgLen.toNat
    H := Rom.H0
    j := 0
    done := false
    phase := .split }

/-- R103 (43_driver_commands.md), R127 (60_exceptions.md): what stands before every command: ignored while faulted
(R131), rejected while busy (R125), else performed. -/
def commandGate (perform : CoreState → CoreState) (c : CoreState) : CoreState :=
  if c.phase.fault then c else if c.phase.busy then reject ErrCode.cmdWhileBusy c else perform c

/-- R103, R126: HASH at an idle core, the length tested first. -/
def hashWhenIdle (p : Params) (c : CoreState) : CoreState :=
  if p.msgMaxBytes < c.msgLen.toNat then reject ErrCode.lenRange c else acceptHash c

/-! ## The fault state, and reset -/

/-- R130 (60_exceptions.md): `enter FAULT(code)`. -/
def enterFault (code : BitVec 4) (c : CoreState) : CoreState :=
  { c with phase := .faulted, fCode := code, done := false }

/-- R140, R141 (70_reset_and_hazards.md): the platform resets the core, the only way out of FAULT. It touches no
part of the host (log 13), and the unwritten cells are new ones (log 20). -/
def platformReset (s : State) : State := { s with core := CoreState.reset, resets := s.resets + 1 }

/-! ## Inputs the host writes -/

/-- R26 (10_state.md), R45 (20_memory.md): a host write to MSG_LEN. -/
def setMsgLen (v : Word) (c : CoreState) : CoreState := if c.inputsLocked then c else { c with msgLen := v }

/-- R43, R45 (20_memory.md): a host write to word k of the message window. -/
def setMsgWord (k : Nat) (v : Word) (c : CoreState) : CoreState :=
  if c.inputsLocked then c else { c with msg := c.msg.writeWord k v }

/-! ## The host agent, R64, R66 (30_encoding.md) -/

/-- A host variable; one not assigned yet reads 0 (DESIGN CHOICE, log 12). -/
def HostAgent.var (g : HostAgent) (x : Nat) : Word := (cellGet g.vars x).getD 0#32

/-- The host goes on to the next line of its program. -/
def HostAgent.advance (g : HostAgent) : HostAgent := { g with pc := g.pc + 1 }

/-- R66: the host has written `v` at `off`. -/
def HostAgent.wrote (g : HostAgent) (off : Nat) (v : Word) : HostAgent :=
  { g with log := g.log ++ [{ isWrite := true, off := off, data := v }] }

/-- R64, R66: the host has read `v` at `off` into its variable `x`. -/
def HostAgent.got (g : HostAgent) (off x : Nat) (v : Word) : HostAgent :=
  { g with vars := cellPut g.vars x v, log := g.log ++ [{ isWrite := false, off := off, data := v }] }

/-- R64: `bnz X, M, label`, with the label's position. -/
def HostAgent.branch (g : HostAgent) (x : Nat) (m : Word) (target : Nat) : HostAgent :=
  if g.var x &&& m = 0#32 then g.advance else { g with pc := target }

end Sys2Proof.Machine
end

