-- ==== Sys2Proof/Machine/Command.lean ====
section
/-! DEFINITION. The meanings of the two commands, as CMD writes reach them (R103, 43_driver_commands.md), and the
answer to a word that is no command. -/

namespace Sys2Proof.Machine

/-- NOP, R105 (43_driver_commands.md). -/
def execNop (s : State) : Host.Outcome State Fault Refusal :=
  .next { s with core := commandGate clearError s.core }

/-- HASH, R104 (43_driver_commands.md): the acceptance (or the rejection). The micro-steps that follow are the
core's own steps (R112, conflict C7 of 90_conflicts.md). -/
def execHash (s : State) : Host.Outcome State Fault Refusal :=
  .next { s with core := commandGate (hashWhenIdle s.params) s.core }

/-- R124, R127 (60_exceptions.md): a CMD write of an illegal word. -/
def illegalCommand (s : State) : State :=
  { s with core := commandGate (reject ErrCode.illegalCmd) s.core }

end Sys2Proof.Machine
end

