-- ==== Sys2Proof/Machine/Operands.lean ====
section
/-! DEFINITION. The operands a HASH takes from state, R62 (30_encoding.md): the message bytes behind the latched
length, padded on the fly (R79, 40_padder_splitter.md). An answer `.error i` says that cell i is needed and unwritten
(R115, 43_driver_commands.md). -/

namespace Sys2Proof.Machine

/-- R29 (10_state.md): `MsgByte(i)`. The rule gives it for `0 <= i < MSG_MAX_BYTES`; beyond, which no run reaches, a cell
is read as any other (DESIGN CHOICE, log 24). -/
def msgByte (c : CoreState) (i : Nat) : Except Nat Byte :=
  match c.msg.read i with
  | some b => .ok b
  | none => .error i

/-- R79: `PadByte(i)`, computed when SPLIT needs it from the message memory and the latched length. The rule gives it
for `0 <= i < P(l)`; beyond, which no run reaches, the byte is a free value (DESIGN CHOICE, log 21). -/
def padByte (c : CoreState) (i : Nat) : Except Nat Byte :=
  if i < c.latLen.toNat then msgByte c i
  else if i = c.latLen.toNat then .ok 0x80#8
  else if i < paddedLen c.latLen.toNat - 8 then .ok 0x00#8
  else if i < paddedLen c.latLen.toNat then .ok (byteBe64 c.lbits (i - (paddedLen c.latLen.toNat - 8)))
  else .ok (Config.freePadByte c.latLen c.lbits i)

/-- R106 (43_driver_commands.md): the big-endian word at padded byte i. -/
def padWord (c : CoreState) (i : Nat) : Except Nat Word := do
  let b0 ← padByte c i
  let b1 ← padByte c (i + 1)
  let b2 ← padByte c (i + 2)
  let b3 ← padByte c (i + 3)
  return be32 b0 b1 b2 b3

/-- R106 (43_driver_commands.md): the sixteen words of block `j`, or the lowest unwritten cell it needs (log 5). -/
def splitWords (c : CoreState) : Except Nat (List Word) :=
  (List.range 16).mapM fun i => padWord c (64 * c.j + 4 * i)

end Sys2Proof.Machine
end

