-- ==== Sys2Proof/Machine/Sequencer.lean ====
section
/-! DEFINITION. The core's agent: the micro-steps of R106 to R111 (43_driver_commands.md) and its enabling, R112. -/

namespace Sys2Proof.Machine

/-- R106, R115: SPLIT. -/
def microSplit (c : CoreState) : CoreState :=
  if c.j < c.nblk then
    match splitWords c with
    | .ok ws => { c with W := loadWords ws c.W, t := 16, phase := .expand }
    | .error i => { c with uninit := some i }
  else enterFault ErrCode.internal c

/-- R107: EXPAND, for 16 ≤ t ≤ 63. -/
def microExpand (c : CoreState) : CoreState :=
  { c with W := scheduleStep c.W c.t, t := c.t + 1, phase := if c.t + 1 = 64 then .vars else .expand }

/-- R108: VARS. -/
def microVars (c : CoreState) : CoreState := { c with vars := initVars c.H, t := 0, phase := .round }

/-- R109: ROUND, for 0 ≤ t ≤ 63. -/
def microRound (c : CoreState) : CoreState :=
  { c with vars := roundAt c.W c.t c.vars, t := c.t + 1, phase := if c.t + 1 = 64 then .accum else .round }

/-- R111: completion. -/
def complete (c : CoreState) : CoreState := { c with phase := .idle, done := true }

/-- R110, R111: ACCUM, with the completion of the last block in the same micro-step. -/
def microAccum (c : CoreState) : CoreState :=
  if c.j + 1 < c.nblk then { c with H := accumulate c.H c.vars, j := c.j + 1, phase := .split }
  else complete { c with H := accumulate c.H c.vars, j := c.j + 1 }

/-- R112: the one micro-step the phase names. The core's agent has no step when the phase is IDLE or FAULTED: its
turn passes (log 2). After SPLIT has recorded MsgUninit(i) it has no further step (R115, log 5). EXPAND and ROUND
outside their range of t have no rule (log 10). -/
def coreStep (c : CoreState) : Host.Outcome CoreState Fault Refusal :=
  match c.uninit with
  | some i => .fault (.msgUninit i)
  | none =>
    match c.phase with
    | .idle => .next c
    | .faulted => .next c
    | .split => .next (microSplit c)
    | .expand => if 16 ≤ c.t ∧ c.t < 64 then .next (microExpand c) else .fault (.sequencerRange c.t)
    | .vars => .next (microVars c)
    | .round => if c.t < 64 then .next (microRound c) else .fault (.sequencerRange c.t)
    | .accum => .next (microAccum c)

/-- The core's turn, in the whole machine. -/
def coreMove (s : State) : Host.Outcome State Fault Refusal :=
  match coreStep s.core with
  | .next c => .next { s with core := c }
  | .fault r => .fault r
  | .refused r => .refused r

end Sys2Proof.Machine
end

