-- ==== Sys2Proof/Machine/Bus.lean ====
section
/-! DEFINITION. The host bus: the register map (R40), reads and writes (R38 to R45, 20_memory.md), the steps of the
host's program (R64, 30_encoding.md), and whose turn it is (R49, 20_memory.md). -/

namespace Sys2Proof.Machine

/-- R39, R40: what an aligned offset names; none outside the window. -/
def targetOf (p : Params) (off : Nat) : Option Target :=
  if off = 0x000 then some .cmd
  else if off = 0x004 then some .status
  else if off = 0x008 then some .msgLen
  else if off = 0x00C then some .caps
  else if h : 0x020 ≤ off ∧ off < 0x040 then some (.digest ⟨(off - 0x020) / 4, by omega⟩)
  else if off < 0x1000 then some .reserved
  else if off < 0x1000 + p.msgMaxBytes then some (.msgWord ((off - 0x1000) / 4))
  else none

/-- R42: alignment first, then the window. -/
def access (p : Params) (off : Nat) : Except Refusal Target :=
  if off % 4 = 0 then
    match targetOf p off with
    | some r => .ok r
    | none => .error (.outsideWindow (p.base + off))
  else .error (.misaligned off)

/-- The value a read of a target returns. CMD reads 0 (R28, 10_state.md); reserved offsets read 0 (R41); DIGESTi is
free unless the core is idle (R116, 43_driver_commands.md, log 6). -/
def readValue (r : Target) (s : State) : Word :=
  match r with
  | .cmd => 0#32
  | .status => statusWord s.core
  | .msgLen => s.core.msgLen
  | .caps => BitVec.ofNat 32 s.params.msgMaxBytes
  | .reserved => 0#32
  | .digest i => if s.core.phase = .idle then s.core.H[i] else Config.freeWord s.draws
  | .msgWord k => s.core.msg.readWord s.resets k

/-- How many free values that read draws (log 8). -/
def drawsUsed (r : Target) (s : State) : Nat :=
  match r with
  | .digest _ => if s.core.phase = .idle then 0 else 1
  | .msgWord _ => 0
  | .cmd => 0
  | .status => 0
  | .msgLen => 0
  | .caps => 0
  | .reserved => 0

/-- R103 (43_driver_commands.md): a write of `v` to CMD. -/
def cmdWrite (v : Word) (s : State) : Host.Outcome State Fault Refusal :=
  match decode v with
  | .command i => exec i s
  | .illegal _ => .next (illegalCommand s)

/-- A write of `v` to a target. Read-only registers and reserved offsets ignore it (R41). -/
def writeTarget (r : Target) (v : Word) (s : State) : Host.Outcome State Fault Refusal :=
  match r with
  | .cmd => cmdWrite v s
  | .msgLen => .next { s with core := setMsgLen v s.core }
  | .msgWord k => .next { s with core := setMsgWord k v s.core }
  | .status => .next s
  | .caps => .next s
  | .reserved => .next s
  | .digest _ => .next s

/-- R38, R66: the host writes `v` at an offset: the host's own side of the access, then its effect. -/
def busWrite (off : Nat) (v : Word) (s : State) : Host.Outcome State Fault Refusal :=
  match access s.params off with
  | .ok r => writeTarget r v { s with host := s.host.advance.wrote off v }
  | .error e => .refused e

/-- R38, R48, R66: the host reads an offset into its variable `x`; the core is not touched. -/
def busRead (off x : Nat) (s : State) : Host.Outcome State Fault Refusal :=
  match access s.params off with
  | .ok r =>
    .next { s with host := s.host.advance.got off x (readValue r s), draws := s.draws + drawsUsed r s }
  | .error e => .refused e

/-- R38, R39, R42: the offset of an access at a byte address, refused for another width or below the window. -/
def offsetOf (p : Params) (addr width : Nat) : Except Refusal Nat :=
  if width = 4 then
    if p.base ≤ addr then .ok (addr - p.base) else .error (.outsideWindow addr)
  else .error (.accessWidth width)

/-- R64, R38: one line of a host program. -/
def hostOp (op : HostOp) (s : State) : Host.Outcome State Fault Refusal :=
  match op with
  | .wr off v => busWrite off v s
  | .rd off x => busRead off x s
  | .bnz x m target => .next { s with host := s.host.branch x m target }
  | .memWrite addr width v =>
    match offsetOf s.params addr width with
    | .ok off => busWrite off v s
    | .error e => .refused e
  | .memRead addr width x =>
    match offsetOf s.params addr width with
    | .ok off => busRead off x s
    | .error e => .refused e

/-- The host's turn. Past the end of its program it makes no access and its turn passes (log 2). -/
def hostMove (s : State) : Host.Outcome State Fault Refusal :=
  match s.host.prog[s.host.pc]? with
  | some op => hostOp op s
  | none => .next s

/-- R49, R112, R140: the turn of the agent named. -/
def runMove (m : Move) (s : State) : Host.Outcome State Fault Refusal :=
  match m with
  | .host => hostMove s
  | .core => coreMove s
  | .reset => .next (platformReset s)

/-- R49, U12: who moves next; free where the schedule names none (log 2). -/
def nextMove (s : State) : Move :=
  match s.sched with
  | m :: _ => m
  | [] => Config.freeMove s.draws

/-- The turn is taken off the schedule (or off the free values). -/
def takeTurn (s : State) : State :=
  match s.sched with
  | _ :: rest => { s with sched := rest }
  | [] => { s with draws := s.draws + 1 }

/-- The host's program with `op` as its next line: it replaces the line at the host's position, and lines that make
no access and do not branch fill the way there where the program is shorter. -/
def placeNext (op : HostOp) (g : HostAgent) : HostAgent :=
  { g with
    prog := g.prog.take g.pc ++ List.replicate (g.pc - g.prog.length) (.bnz 0 0#32 0) ++ [op] ++
      g.prog.drop (g.pc + 1) }

end Sys2Proof.Machine
end

