-- ==== Sys2Proof/Machine/HostProgram.lean ====
section
/-! DEFINITION. The host-program language of R64 and R65 (30_encoding.md) and its assembly into the host's steps,
and the host's sequence of R144 (70_reset_and_hazards.md). -/

namespace Sys2Proof.Machine

/-- R40 (20_memory.md): the register names as offsets. -/
inductive RegName where
  | cmd
  | status
  | msgLen
  | caps
  | digest (i : Nat)
  | msgWord (k : Nat)
deriving DecidableEq, Repr

/-- R40 (20_memory.md): the offset of a register name. -/
def regOffset : RegName → Nat
  | .cmd => 0x000
  | .status => 0x004
  | .msgLen => 0x008
  | .caps => 0x00C
  | .digest i => 0x020 + 4 * i
  | .msgWord k => 0x1000 + 4 * k

/-- R64, R65: one line of a host program. Host variables and labels are numbered. -/
inductive Line where
  | wr (off : Nat) (v : Word)
  | rd (off : Nat) (x : Nat)
  | label (l : Nat)
  | bnz (x : Nat) (m : Word) (l : Nat)
  | nop
  | hash
  | wait (x : Nat)
  | msgw (k : Nat) (v : Word)
  | load (bytes : List Byte)
  | digest (x : Nat)
deriving DecidableEq, Repr

/-- R65: the words of `load`: bytes past the end are written as 0x00. -/
def loadWord (bytes : List Byte) (k : Nat) : Word :=
  be32 (bytes.getD (4 * k) 0#8) (bytes.getD (4 * k + 1) 0#8) (bytes.getD (4 * k + 2) 0#8) (bytes.getD (4 * k + 3) 0#8)

/-- R65: the number of words with `4k < n`. -/
def loadCount (n : Nat) : Nat := (n + 3) / 4

/-- R64, R65: the expansion of a line that stands at position `pos`, with the labels' positions; none for a `bnz`
to a label the program does not have. -/
def expandLine (labels : Nat → Option Nat) (pos : Nat) : Line → Option (List HostOp)
  | .wr off v => some [.wr off v]
  | .rd off x => some [.rd off x]
  | .label _ => some []
  | .bnz x m l => (labels l).map fun p => [.bnz x m p]
  | .nop => some [.wr (regOffset .cmd) 0x00000000#32]
  | .hash => some [.wr (regOffset .cmd) 0x00000001#32]
  | .wait x => some [.rd (regOffset .status) x, .bnz x 0x1#32 pos]
  | .msgw k v => some [.wr (regOffset (.msgWord k)) v]
  | .load bytes =>
    some ((List.range (loadCount bytes.length)).map (fun k => .wr (regOffset (.msgWord k)) (loadWord bytes k)) ++
      [.wr (regOffset .msgLen) (BitVec.ofNat 32 bytes.length)])
  | .digest x => some ((List.range 8).map fun i => .rd (regOffset (.digest i)) (x + i))

/-- How many host steps a line becomes. -/
def lineSize : Line → Nat
  | .wr _ _ => 1
  | .rd _ _ => 1
  | .label _ => 0
  | .bnz _ _ _ => 1
  | .nop => 1
  | .hash => 1
  | .wait _ => 2
  | .msgw _ _ => 1
  | .load bytes => loadCount bytes.length + 1
  | .digest _ => 8

/-- The position of a label in a program that starts at `pos`. R64 does not say what a label written twice names; here
it is its first position (DESIGN CHOICE, log 22). -/
def labelPos : List Line → Nat → Nat → Option Nat
  | [], _, _ => none
  | .label l :: rest, pos, x => if l = x then some pos else labelPos rest pos x
  | ln :: rest, pos, x => labelPos rest (pos + lineSize ln) x

/-- The lines from `pos` on, expanded. -/
def expandLines (labels : Nat → Option Nat) : Nat → List Line → Option (List HostOp)
  | _, [] => some []
  | pos, ln :: rest =>
    match expandLine labels pos ln with
    | none => none
    | some here =>
      match expandLines labels (pos + lineSize ln) rest with
      | none => none
      | some more => some (here ++ more)

/-- A host program in the syntax of R64 and R65 as the host's steps. -/
def assemble (lines : List Line) : Option (List HostOp) := expandLines (labelPos lines 0) 0 lines

/-! ## The host's sequence, R144 (70_reset_and_hazards.md), log 23 -/

/-- The comparison `l <= X` of a number with the host variable `x`, from bit `n - 1` down, in the tests R64 gives:
where the bits differ it goes to `ok` or, `x` not being 0, to `fail`; where none differs it falls through. The label
`first + i` stands after the test of bit i. -/
def fitsLines (l x ok fail first : Nat) : Nat → List Line
  | 0 => []
  | i + 1 =>
    (if l.testBit i then [.bnz x (BitVec.twoPow 32 i) (first + i), .bnz x 0xffffffff#32 fail, .label (first + i)]
     else [.bnz x (BitVec.twoPow 32 i) ok]) ++ fitsLines l x ok fail first i

/-- R144: a poll of STATUS into variable `x` until none of the bits of `m` is 1. -/
def pollLines (x l : Nat) (m : Word) : List Line := [.label l, .rd (regOffset .status) x, .bnz x m l]

/-- R144: the host's steps to hash a message. Step 1 polls until BUSY and FAULT are 0. CAPS is read into variable 10 and
a message longer than it is given up (step 3) before anything is written. Steps 2 and 3 are `load`. Step 6 reads STATUS
and gives up unless ERR = 0 and DONE = 1. Step 7 reads the digest into variables 2 to 9. Variable 0 is for the polls
and variable 1 for step 6; label 3 is the end. -/
def hashLines (message : List Byte) : List Line :=
  pollLines 0 0 0x9#32 ++
  [.rd (regOffset .caps) 10] ++
  (if message.length < 2 ^ 32 then fitsLines message.length 10 1 3 5 32 else [.bnz 10 0xffffffff#32 3]) ++
  [.label 1, .load message, .hash] ++
  pollLines 0 4 0x1#32 ++
  [.rd (regOffset .status) 1, .bnz 1 0x4#32 3, .bnz 1 0x2#32 2, .bnz 10 0xffffffff#32 3, .label 2, .digest 2, .label 3]

end Sys2Proof.Machine
end

