-- ==== Sys2Proof/Machine/Step.lean ====
section
/-! DEFINITION. One step of the whole machine, and where its next command is placed. -/

namespace Sys2Proof.Machine

/-- R49 (20_memory.md), R112 (43_driver_commands.md): one atomic step of the agent whose turn it is. -/
def step (s : State) : Host.Outcome State Fault Refusal := runMove (nextMove s) (takeTurn s)

/-- `s` with a CMD write of the given bits as the host's next access and the next turn the host's: a command reaches
the core as a host write, R28 (10_state.md), log 3. -/
def State.withFetchWord (s : State) (nbits w : Nat) : State :=
  { s with
    host := placeNext (.wr 0x000 (BitVec.ofNat 32 (w % 2 ^ nbits))) s.host
    sched := .host :: s.sched }

end Sys2Proof.Machine
end

