-- ==== Sys2Proof/WellFormed.lean ====
section
/-! DEFINITION. The checks on terms that are built outside the machine: commands and parameters. -/

namespace Sys2Proof

/-- R62 (30_encoding.md): a command has no operand field, so there is nothing an instruction could have wrong. -/
def Instr.wellFormed : Instr → Bool
  | .nop => true
  | .hash => true

/-- R5 (00_scope.md): `MSG_MAX_BYTES` is a multiple of 4 from 4 to 2^32 - 4096, `BASE` a multiple of 4096. -/
abbrev Params.wf (p : Params) : Prop :=
  p.msgMaxBytes % 4 = 0 ∧ 4 ≤ p.msgMaxBytes ∧ p.msgMaxBytes ≤ 2 ^ 32 - 4096 ∧ p.base % 4096 = 0

/-- R57 (30_encoding.md), on the word itself: only 0x00000000 and 0x00000001 are legal. -/
abbrev legalWord (v : Word) : Prop := v = 0x00000000#32 ∨ v = 0x00000001#32

end Sys2Proof
end

