-- ==== Sys2Proof/Safety.lean ====
section
/-! DEFINITION. What counts as a safe run and the invariants claims are stated with. -/

namespace Sys2Proof.Machine

/-! ## The host's contract -/

/-- R42 (20_memory.md): an offset inside the contract. -/
abbrev offsetInContract (p : Params) (off : Nat) : Prop := off % 4 = 0 ∧ off < 0x1000 + p.msgMaxBytes

/-- R42 (20_memory.md): the accesses of a host program that the core does not refuse. -/
abbrev HostOp.inContract (p : Params) : HostOp → Prop
  | .wr off _ => offsetInContract p off
  | .rd off _ => offsetInContract p off
  | .bnz _ _ _ => True
  | .memWrite addr width _ => width = 4 ∧ p.base ≤ addr ∧ offsetInContract p (addr - p.base)
  | .memRead addr width _ => width = 4 ∧ p.base ≤ addr ∧ offsetInContract p (addr - p.base)

/-- R131, R133 (60_exceptions.md): no fault is recorded, neither FAULT nor MsgUninit. -/
abbrev CoreState.noFault (c : CoreState) : Prop := c.uninit = none ∧ c.phase ≠ .faulted

/-! ## The invariant of every run -/

/-- What every run from reset keeps. `nblk`, `lbits`, `j` and `t` keep the ranges of R15 (10_state.md), ERRCODE never
shows a reserved code (R60, 30_encoding.md), FAULT is not entered (R132, 60_exceptions.md), and while busy the latched
length is MSG_LEN (R54, 20_memory.md). -/
structure CoreState.Inv (p : Params) (c : CoreState) : Prop where
  memoryCanonical : c.msg.wf
  memoryInside : ∀ i, p.msgMaxBytes ≤ i → c.msg.read i = none
  blockCount : c.nblk = paddedBlocks c.latLen.toNat
  bitCount : c.lbits = bitLength c.latLen.toNat
  blockIndex : c.j ≤ c.nblk
  busyIndex : c.phase.busy = true → c.j < c.nblk
  busyLength : c.phase.busy = true → c.latLen = c.msgLen ∧ c.msgLen.toNat ≤ p.msgMaxBytes
  busyNotDone : c.phase.busy = true → c.done = false
  counter : c.t ≤ 64
  expandRange : c.phase = .expand → 16 ≤ c.t ∧ c.t < 64
  roundRange : c.phase = .round → c.t < 64
  notFaulted : c.phase ≠ .faulted
  noFaultCode : c.fCode = 0x0#4
  errorClear : c.err = false → c.errCode = 0x0#4
  errorCodes : c.err = true → c.errCode = 0x1#4 ∨ c.errCode = 0x2#4 ∨ c.errCode = 0x3#4
  recordedCell : ∀ i, c.uninit = some i → c.phase = .split ∧ i < c.latLen.toNat ∧ c.msg.read i = none

/-- The invariant of the whole machine. -/
structure State.Inv (s : State) : Prop where
  params : s.params.wf
  core : s.core.Inv s.params

/-! ## A HASH in progress, R114 (43_driver_commands.md) -/

/-- The message memory holds the bytes of `m` from cell 0 on. -/
abbrev Memory.holds (mem : Memory) (m : List Byte) : Prop := ∀ i, i < m.length → mem.read i = m[i]?

/-- R100 (42_compression.md): S_j, the hash state after the first j blocks of the padded message. -/
def stateAfter (m : List Byte) (j : Nat) : Vector Word 8 := foldBlocks Rom.H0 ((blocks (pad m)).take j)

/-- How far the phase is with block `b`, from the hash state `c.H` the block started from. -/
def blockProgress (b : Block) (c : CoreState) : Prop :=
  match c.phase with
  | .split => True
  | .expand => 16 ≤ c.t ∧ c.t < 64 ∧ ∀ i (_ : i < 64), i < c.t → c.W[i] = (expand b)[i]
  | .vars => c.W = expand b
  | .round => c.t < 64 ∧ c.W = expand b ∧ c.vars = rounds (expand b) (initVars c.H) c.t
  | .accum => c.W = expand b ∧ c.vars = rounds (expand b) (initVars c.H) 64
  | .idle => False
  | .faulted => False

/-- The core is hashing `m`: block `j` of it is under way and the hash state is S_j. -/
structure HashInProgress (m : List Byte) (c : CoreState) : Prop where
  cells : c.msg.holds m
  length : c.latLen.toNat = m.length
  bits : c.lbits = bitLength m.length
  count : c.nblk = paddedBlocks m.length
  noRecord : c.uninit = none
  hashState : c.H = stateAfter m c.j
  block : ∃ b, (blocks (pad m))[c.j]? = some b ∧ blockProgress b c

/-- R111, R114: the core has hashed `m`. -/
abbrev HashDone (m : List Byte) (c : CoreState) : Prop := c.phase = .idle ∧ c.done = true ∧ c.H = sha256 m

/-- R113: how many micro-steps of the running HASH are left. -/
def remaining (c : CoreState) : Nat :=
  match c.phase with
  | .idle => 0
  | .faulted => 0
  | .split => 115 * (c.nblk - c.j)
  | .expand => 115 * (c.nblk - c.j) - 1 - (c.t - 16)
  | .vars => 115 * (c.nblk - c.j) - 49
  | .round => 115 * (c.nblk - c.j) - 50 - c.t
  | .accum => 115 * (c.nblk - c.j) - 114

/-- A schedule of `n` turns of the core, then `rest`. -/
def coreTurns (n : Nat) (rest : List Move) : List Move := List.replicate n .core ++ rest

/-! ## Whole interleavings, and weak fairness, R113 (43_driver_commands.md) -/

/-- The run of the first `n` turns of the interleaving `order`. -/
def runTurns (order : Nat → Move) (n : Nat) (s : State) : Host.Outcome State Fault Refusal :=
  Sys2Proof.core.run n { s with sched := (List.range n).map order }

/-- R112 (43_driver_commands.md): the core's agent has an enabled step. -/
abbrev CoreState.enabled (c : CoreState) : Prop := c.phase.busy = true ∧ c.uninit = none

/-- R113: weak fairness of the core's agent in the run of `order` from `s`: where it is enabled at every turn from the
n-th on, one of those turns is its own. No number of turns is bounded. -/
def WeaklyFair (order : Nat → Move) (s : State) : Prop :=
  ∀ n, (∀ k, n ≤ k → ∃ u, runTurns order k s = .next u ∧ u.core.enabled) → ∃ k, n ≤ k ∧ order k = .core

end Sys2Proof.Machine
end

