-- ==== Sys2Proof/Certificates/Slice0/Obligations.lean ====
section
/-! DEFINITION. The statements about the model, from the numbered rules of the spec. A docstring names the rule. -/

open Sys2Proof Sys2Proof.Machine

/-! ## Commands and their words -/

/-- R58 (30_encoding.md): the decoder is the total function of the rule. -/
def Obligations.DecodeIsTheRule : Prop :=
  ∀ v : Word,
    (v = 0x00000000#32 → decode v = .command .nop) ∧
    (v = 0x00000001#32 → decode v = .command .hash) ∧
    (v ≠ 0x00000000#32 → v ≠ 0x00000001#32 → ∃ why, decode v = .illegal why)

/-- Decoding and encoding agree, on words and on the table's bit strings (R55 to R57, 30_encoding.md): every command's
word decodes to it, and a word that decodes to a command is that command's word, so no bit is dropped. -/
def Obligations.DecodeAndEncodeAgree : Prop :=
  (∀ i : Instr, i.wellFormed = true →
    decode (encode i) = .command i ∧ decodeTableWord 32 (encode i).toNat = some i) ∧
  (∀ (v : Word) (i : Instr), decode v = .command i → v = encode i) ∧
  (∀ (w : Nat) (i : Instr), w < 2 ^ 32 → decodeTableWord 32 w = some i → w = (encode i).toNat)

/-- Words written out bit by bit from R55 and R56 (30_encoding.md); the illegal ones are those of vectors V-M7 to V-M9
(95_test_vectors.md). -/
def Obligations.WrittenOutWordsDecode : Prop :=
  decode 0b00000000000000000000000000000000#32 = .command .nop ∧
  decode 0b00000000000000000000000000000001#32 = .command .hash ∧
  decode 0b00000000000000000000000000000101#32 = .illegal .reservedOp ∧
  decode 0b00000000000000000000000000010001#32 = .illegal .reservedBits ∧
  decode 0b10000000000000000000000000000000#32 = .illegal .reservedBits

/-- A step runs the decoded instruction: when it is the host's turn and its next line writes a command's word to CMD
(by offset, or by address and width, R38 and R39 of 20_memory.md), the step is exec of that command at the state in
which the turn is taken and the host has gone on to its next line and recorded the access. -/
def Obligations.StepRunsTheWrittenCommand : Prop :=
  ∀ (s : State) (v : Word) (i : Instr) (op : HostOp),
    nextMove s = .host → s.host.prog[s.host.pc]? = some op →
    (op = .wr 0x000 v ∨ op = .memWrite s.params.base 4 v) → decode v = .command i →
    step s = exec i { takeTurn s with host := s.host.advance.wrote 0x000 v }

/-- R103 (43_driver_commands.md) and R127 (60_exceptions.md): what a CMD write of any word does in any state, in the
order of the rule's tests; a host write at offset 0x000 is that CMD write, in one step. -/
def Obligations.CmdWriteFollowsTheDispatch : Prop :=
  ∀ (v : Word) (s : State),
    busWrite 0x000 v s = cmdWrite v { s with host := s.host.advance.wrote 0x000 v } ∧
    (s.core.phase = .faulted → cmdWrite v s = .next s) ∧
    (s.core.phase.busy = true →
      cmdWrite v s = .next { s with core := { s.core with err := true, errCode := 0x2#4 } }) ∧
    (s.core.phase = .idle →
      (v ≠ 0x00000000#32 → v ≠ 0x00000001#32 →
        cmdWrite v s = .next { s with core := { s.core with err := true, errCode := 0x1#4 } }) ∧
      (v = 0x00000000#32 → cmdWrite v s = exec .nop s) ∧
      (v = 0x00000001#32 → s.params.msgMaxBytes < s.core.msgLen.toNat →
        cmdWrite v s = .next { s with core := { s.core with err := true, errCode := 0x3#4 } }) ∧
      (v = 0x00000001#32 → s.core.msgLen.toNat ≤ s.params.msgMaxBytes → cmdWrite v s = exec .hash s))

/-- R105 (43_driver_commands.md): NOP, the word 0x00000000, clears ERR and ERRCODE and nothing else; it is rejected
while busy and ignored while faulted. The last clause is the rule's example on STATUS. -/
def Obligations.NopClearsTheError : Prop :=
  decode 0x00000000#32 = .command .nop ∧
  ∀ s : State,
    (s.core.phase = .idle →
      exec .nop s = .next { s with core := { s.core with err := false, errCode := 0x0#4 } }) ∧
    (s.core.phase.busy = true →
      exec .nop s = .next { s with core := { s.core with err := true, errCode := 0x2#4 } }) ∧
    (s.core.phase = .faulted → exec .nop s = .next s) ∧
    (statusWord s.core = 0x00000016#32 → ∃ t, exec .nop s = .next t ∧ statusWord t.core = 0x00000002#32)

/-- HASH in every state (R104, 43_driver_commands.md): at an idle core whose MSG_LEN fits it is accepted, and the
latches, H, j and the flags become what the rule's pseudocode says, in the same step as the CMD write (R50,
20_memory.md); a longer one is rejected with LEN_RANGE and MSG_LEN keeps its value (R126, 60_exceptions.md); it is
rejected while busy (R118) and ignored while faulted (R103; R131, 60_exceptions.md). The eight words of H are H0 as the
table of R17 (10_state.md) gives it, PRESUMED, log 9. -/
def Obligations.HashIsAcceptedOrRejected : Prop :=
  ∀ s : State,
    (s.core.phase = .idle → s.params.msgMaxBytes < s.core.msgLen.toNat →
      exec .hash s = .next { s with core := { s.core with err := true, errCode := 0x3#4 } }) ∧
    (s.core.phase.busy = true →
      exec .hash s = .next { s with core := { s.core with err := true, errCode := 0x2#4 } }) ∧
    (s.core.phase = .faulted → exec .hash s = .next s) ∧
    (s.core.phase = .idle → s.core.msgLen.toNat ≤ s.params.msgMaxBytes →
      exec .hash s = .next { s with core := { s.core with
        latLen := s.core.msgLen
        lbits := BitVec.ofNat 64 (8 * s.core.msgLen.toNat)
        nblk := (s.core.msgLen.toNat + 8) / 64 + 1
        H := #v[0x6a09e667#32, 0xbb67ae85#32, 0x3c6ef372#32, 0xa54ff53a#32, 0x510e527f#32, 0x9b05688c#32,
          0x1f83d9ab#32, 0x5be0cd19#32]
        j := 0
        done := false
        err := false
        errCode := 0x0#4
        phase := .split } })

/-- R125 (60_exceptions.md): while busy every CMD write, legal or not, is rejected with CMD_WHILE_BUSY and the HASH in
progress continues unaffected: the core's next micro-step is the one it would have been. -/
def Obligations.BusyCommandsAreRejected : Prop :=
  ∀ (s : State) (i : Instr), s.core.phase.busy = true →
    exec i s = .next { s with core := { s.core with err := true, errCode := 0x2#4 } } ∧
    (∀ v, cmdWrite v s = .next { s with core := { s.core with err := true, errCode := 0x2#4 } }) ∧
    ∀ c, coreStep s.core = .next c →
      coreStep { s.core with err := true, errCode := 0x2#4 } = .next { c with err := true, errCode := 0x2#4 }

/-- R129 (60_exceptions.md): a CMD write that leaves a rejection behind changed ERR and ERRCODE and nothing else
(outside FAULT, where a write is not a rejection but ignored). -/
def Obligations.RejectionsArePrecise : Prop :=
  ∀ (v : Word) (s t : State), s.core.phase ≠ .faulted → cmdWrite v s = .next t → t.core.err = true →
    t = { s with core := { s.core with err := true, errCode := t.core.errCode } } ∧
    (t.core.errCode = 0x1#4 ∨ t.core.errCode = 0x2#4 ∨ t.core.errCode = 0x3#4)

/-- Frame of both commands (R11, 00_scope.md): a command answers a next state in every state, and leaves the host,
the parameters, the schedule, the model's counters, every message cell, MSG_LEN, W, a..h, FCODE, t and the recorded
fault alone; NOP leaves H, DONE, the phase, the latches and j alone too; HASH leaves them alone unless it is accepted,
at an idle core with a length that fits. -/
def Obligations.CommandsKeepTheRest : Prop :=
  ∀ (i : Instr) (s : State), ∃ t, exec i s = .next t ∧
    t.host = s.host ∧ t.params = s.params ∧ t.sched = s.sched ∧ t.draws = s.draws ∧ t.resets = s.resets ∧
    (∀ a, t.core.msg.read a = s.core.msg.read a) ∧
    t.core.msgLen = s.core.msgLen ∧ t.core.W = s.core.W ∧ t.core.vars = s.core.vars ∧ t.core.fCode = s.core.fCode ∧
    t.core.t = s.core.t ∧ t.core.uninit = s.core.uninit ∧
    ((i = .nop ∨ s.core.phase ≠ .idle ∨ s.params.msgMaxBytes < s.core.msgLen.toNat) →
      t.core.H = s.core.H ∧ t.core.done = s.core.done ∧ t.core.phase = s.core.phase ∧ t.core.latLen = s.core.latLen ∧
      t.core.lbits = s.core.lbits ∧ t.core.nblk = s.core.nblk ∧ t.core.j = s.core.j)

/-! ## The micro-steps -/

/-- R106 (43_driver_commands.md): SPLIT. Outside the padded message it enters FAULT with INTERNAL; over an unwritten
needed cell the model records a fault (the lowest such cell, log 5); else W[0..15] are the big-endian words of the
padded bytes 64j to 64j+63, t is 16 and the phase EXPAND. -/
def Obligations.SplitLoadsTheBlock : Prop :=
  ∀ c : CoreState, c.uninit = none → c.phase = .split →
    (¬ c.j < c.nblk → coreStep c = .next { c with phase := .faulted, fCode := 0xF#4, done := false }) ∧
    (c.j < c.nblk → ∀ i, 64 * c.j ≤ i → i < 64 * c.j + 64 → i < c.latLen.toNat → c.msg.read i = none →
      (∀ k, 64 * c.j ≤ k → k < i → (c.msg.read k).isSome) →
      coreStep c = .next { c with uninit := some i }) ∧
    (c.j < c.nblk → (∀ i, 64 * c.j ≤ i → i < 64 * c.j + 64 → i < c.latLen.toNat → (c.msg.read i).isSome) →
      ∃ W' : Vector Word 64,
        coreStep c = .next { c with W := W', t := 16, phase := .expand } ∧
        (∀ i (_ : i < 64), 16 ≤ i → W'[i] = c.W[i]) ∧
        (∀ i (_ : i < 16), ∀ k, k < 4 →
          padByte c (64 * c.j + 4 * i + k) = .ok (W'[i].extractLsb' (24 - 8 * k) 8)))

/-- R79 (40_padder_splitter.md): PadByte, computed from the message memory and the latched length, is byte i of the
padded message, whose four ranges are the rule's. -/
def Obligations.PadByteIsThePaddedMessage : Prop :=
  ∀ (c : CoreState) (m : List Byte) (i : Nat),
    c.msg.holds m → c.latLen.toNat = m.length → c.lbits = BitVec.ofNat 64 (8 * m.length) → i < paddedLen m.length →
    ∃ b, padByte c i = .ok b ∧ (pad m)[i]? = some b ∧
      (i < m.length → c.msg.read i = some b) ∧
      (i = m.length → b = 0x80#8) ∧
      (m.length < i → i < paddedLen m.length - 8 → b = 0x00#8) ∧
      (paddedLen m.length - 8 ≤ i → b = c.lbits.extractLsb' (56 - 8 * (i - (paddedLen m.length - 8))) 8)

/-- R107 (43_driver_commands.md): EXPAND computes one schedule word. -/
def Obligations.ExpandComputesOneWord : Prop :=
  ∀ c : CoreState, c.uninit = none → c.phase = .expand → ∀ (_ : 16 ≤ c.t) (_ : c.t < 64),
    coreStep c = .next { c with
      W := c.W.set c.t (sigma1 c.W[c.t - 2] + c.W[c.t - 7] + sigma0 c.W[c.t - 15] + c.W[c.t - 16])
      t := c.t + 1
      phase := if c.t + 1 = 64 then .vars else .expand }

/-- R108 (43_driver_commands.md): VARS loads a..h from H, in order. -/
def Obligations.VarsLoadsTheHashState : Prop :=
  ∀ c : CoreState, c.uninit = none → c.phase = .vars →
    coreStep c = .next { c with
      vars := { a := c.H[0], b := c.H[1], c := c.H[2], d := c.H[3], e := c.H[4], f := c.H[5], g := c.H[6], h := c.H[7] }
      t := 0
      phase := .round }

/-- R109 (43_driver_commands.md): ROUND performs one compression round, all eight variables replaced at once. -/
def Obligations.RoundPerformsOneRound : Prop :=
  ∀ c : CoreState, c.uninit = none → c.phase = .round → ∀ (_ : c.t < 64) (t1 t2 : Word),
    t1 = c.vars.h + (rotr c.vars.e 6 ^^^ rotr c.vars.e 11 ^^^ rotr c.vars.e 25) +
      ((c.vars.e &&& c.vars.f) ^^^ (~~~c.vars.e &&& c.vars.g)) + Rom.K[c.t] + c.W[c.t] →
    t2 = (rotr c.vars.a 2 ^^^ rotr c.vars.a 13 ^^^ rotr c.vars.a 22) +
      ((c.vars.a &&& c.vars.b) ^^^ (c.vars.a &&& c.vars.c) ^^^ (c.vars.b &&& c.vars.c)) →
    coreStep c = .next { c with
      vars :=
        { a := t1 + t2, b := c.vars.a, c := c.vars.b, d := c.vars.c,
          e := c.vars.d + t1, f := c.vars.e, g := c.vars.f, h := c.vars.g }
      t := c.t + 1
      phase := if c.t + 1 = 64 then .accum else .round }

/-- R110 and R111 (43_driver_commands.md): ACCUM adds a..h into H and goes to the next block, or completes. -/
def Obligations.AccumAddsAndCompletes : Prop :=
  ∀ c : CoreState, c.uninit = none → c.phase = .accum →
    ∃ H' : Vector Word 8,
      (H'[0] = c.H[0] + c.vars.a ∧ H'[1] = c.H[1] + c.vars.b ∧ H'[2] = c.H[2] + c.vars.c ∧ H'[3] = c.H[3] + c.vars.d ∧
        H'[4] = c.H[4] + c.vars.e ∧ H'[5] = c.H[5] + c.vars.f ∧ H'[6] = c.H[6] + c.vars.g ∧ H'[7] = c.H[7] + c.vars.h) ∧
      (c.j + 1 < c.nblk → coreStep c = .next { c with H := H', j := c.j + 1, phase := .split }) ∧
      (¬ c.j + 1 < c.nblk → coreStep c = .next { c with H := H', j := c.j + 1, phase := .idle, done := true })

/-- The core's agent has an enabled step exactly when it is busy (R112, 43_driver_commands.md): in an IDLE or FAULTED
core its turn changes nothing, in a busy one (in a state that meets the invariant, with no fault recorded) its turn
answers another state. That a turn without a step passes is the model's choice, log 2. -/
def Obligations.CoreStepsExactlyWhenBusy : Prop :=
  ∀ (p : Params) (c : CoreState), c.Inv p → c.uninit = none →
    (c.phase.busy = false → coreStep c = .next c) ∧
    (c.phase.busy = true → ∃ c', coreStep c = .next c' ∧ c' ≠ c)

/-- Unwritten message bytes (R115, 43_driver_commands.md): the micro-step that records MsgUninit(i) is SPLIT over an
unwritten cell below the latched length, changes nothing else, leaves STATUS as it reads, and the core's agent then has
no further step. That the record is a field of the state and its turns after it answer a fault is the model's form,
log 5. -/
def Obligations.UnwrittenByteStopsTheCore : Prop :=
  ∀ (c c' : CoreState) (i : Nat), coreStep c = .next c' → c.uninit = none → c'.uninit = some i →
    c' = { c with uninit := some i } ∧ c.phase = .split ∧ 64 * c.j ≤ i ∧ i < 64 * c.j + 64 ∧ i < c.latLen.toNat ∧
      c.msg.read i = none ∧ statusWord c' = statusWord c ∧ coreStep c' = .fault (.msgUninit i)

/-- R130 (60_exceptions.md): entering FAULT sets the phase, FCODE and DONE and nothing else, SPLIT's check is the only
way in, and STATUS then reads 0x000000FC. -/
def Obligations.FaultEntryShowsInternal : Prop :=
  (∀ c : CoreState, c.uninit = none → c.phase = .split → ¬ c.j < c.nblk →
    coreStep c = .next { c with phase := .faulted, fCode := 0xF#4, done := false }) ∧
  (∀ c c' : CoreState, coreStep c = .next c' → c.phase ≠ .faulted → c'.phase = .faulted →
    c.phase = .split ∧ ¬ c.j < c.nblk ∧ c' = { c with phase := .faulted, fCode := 0xF#4, done := false } ∧
      statusWord c' = 0x000000FC#32)

/-! ## Words and mixing functions -/

/-- R80 and R81 (41_schedule.md): bit i of ROTR(x, n) is bit (i + n) mod 32 of x for 0 < n < 32; SHR is
floor(x / 2^n). -/
def Obligations.RotateAndShiftBits : Prop :=
  ∀ (x : Word) (n : Nat), n < 32 →
    (0 < n → ∀ i, i < 32 → (rotr x n).getLsbD i = x.getLsbD ((i + n) % 32)) ∧
    (shr x n).toNat = x.toNat / 2 ^ n

/-- R82, R83 (41_schedule.md), R91, R92 (42_compression.md): the four sigma functions, bit by bit; R89 and R90: Ch takes
f's bit where e's bit is 1 and g's where it is 0, and each bit of Maj is the majority of the three. -/
def Obligations.MixingFunctionsBitByBit : Prop :=
  ∀ (x y z : Word) (i : Nat), i < 32 →
    (sigma0 x).getLsbD i =
      (x.getLsbD ((i + 7) % 32) ^^ x.getLsbD ((i + 18) % 32) ^^ (decide (i < 29) && x.getLsbD (i + 3))) ∧
    (sigma1 x).getLsbD i =
      (x.getLsbD ((i + 17) % 32) ^^ x.getLsbD ((i + 19) % 32) ^^ (decide (i < 22) && x.getLsbD (i + 10))) ∧
    (bigSigma0 x).getLsbD i = (x.getLsbD ((i + 2) % 32) ^^ x.getLsbD ((i + 13) % 32) ^^ x.getLsbD ((i + 22) % 32)) ∧
    (bigSigma1 x).getLsbD i = (x.getLsbD ((i + 6) % 32) ^^ x.getLsbD ((i + 11) % 32) ^^ x.getLsbD ((i + 25) % 32)) ∧
    (ch x y z).getLsbD i = (if x.getLsbD i then y.getLsbD i else z.getLsbD i) ∧
    (maj x y z).getLsbD i =
      decide (2 ≤ (x.getLsbD i).toNat + (y.getLsbD i).toNat + (z.getLsbD i).toNat)

/-- The big-endian byte order of R9 (00_scope.md) and R46 (20_memory.md): the value of `be32`, and the value the bytes
of `bytes_be64` spell. -/
def Obligations.ByteOrderIsBigEndian : Prop :=
  (∀ b0 b1 b2 b3 : Byte,
    (be32 b0 b1 b2 b3).toNat = b0.toNat * 2 ^ 24 + b1.toNat * 2 ^ 16 + b2.toNat * 2 ^ 8 + b3.toNat ∧
    bytesBe32 (be32 b0 b1 b2 b3) = [b0, b1, b2, b3]) ∧
  (∀ v : BitVec 64, (bytesBe64 v).length = 8 ∧ (bytesBe64 v).foldl (fun n b => n * 256 + b.toNat) 0 = v.toNat)

/-! ## The padder, the splitter, the schedule, the digest -/

/-- R69 (40_padder_splitter.md): the padded message byte by byte. -/
def Obligations.PaddedMessageByteByByte : Prop :=
  ∀ m : List Byte,
    (pad m).length = paddedLen m.length ∧
    ∀ i, i < paddedLen m.length → ∃ b, (pad m)[i]? = some b ∧
      (i < m.length → m[i]? = some b) ∧
      (i = m.length → b = 0x80#8) ∧
      (m.length < i → i < paddedLen m.length - 8 → b = 0x00#8) ∧
      (paddedLen m.length - 8 ≤ i →
        b = (BitVec.ofNat 64 (8 * m.length)).extractLsb' (56 - 8 * (i - (paddedLen m.length - 8))) 8)

/-- R74 (40_padder_splitter.md): the padded length less the length field, the marker and the zero bits is the message's
length in bits, and the last 8 bytes, read as a big-endian number, hold it mod 2^64. -/
def Obligations.LengthFieldHoldsTheBitLength : Prop :=
  ∀ m : List Byte,
    ((pad m).drop ((pad m).length - 8)).foldl (fun n b => n * 256 + b.toNat) 0 = (8 * m.length) % 2 ^ 64 ∧
    8 * (pad m).length - 64 - 1 - (8 * ((pad m).length - m.length - 9) + 7) = 8 * m.length

/-- R68 (40_padder_splitter.md): the padded length is 64 N(l), the smallest multiple of 64 that is at least l + 9; R73:
the padded message is 9 to 72 bytes longer, 9 exactly when l mod 64 = 55 and 72 exactly when l mod 64 = 56. -/
def Obligations.PaddedLengthIsLeast : Prop :=
  ∀ m : List Byte,
    (pad m).length = 64 * ((m.length + 8) / 64 + 1) ∧
    (∀ q, q % 64 = 0 → m.length + 9 ≤ q → (pad m).length ≤ q) ∧
    m.length + 9 ≤ (pad m).length ∧ (pad m).length ≤ m.length + 72 ∧
    ((pad m).length = m.length + 9 ↔ m.length % 64 = 55) ∧
    ((pad m).length = m.length + 72 ↔ m.length % 64 = 56)

/-- R75 (40_padder_splitter.md): the blocks cover the sequence left to right with no gaps or overlaps; the splitter
fails fast on a length that is no positive multiple of 64, which a padded message's length never is. -/
def Obligations.SplitterCoversTheMessage : Prop :=
  (∀ (q : List Byte) (bs : List Block), split q = some bs →
    bs.length = q.length / 64 ∧ bs.flatMap Vector.toList = q ∧
    ∀ j k (_ : k < 64), j < bs.length → (bs[j]?.map fun b => b[k]) = q[64 * j + k]?) ∧
  (∀ q : List Byte, split q = none ↔ ¬ (q.length % 64 = 0 ∧ 0 < q.length)) ∧
  (∀ m : List Byte, split (pad m) = some (blocks (pad m)))

/-- R84 and R85 (41_schedule.md): the schedule of a block is its sixteen big-endian words, then the recurrence on the
schedule itself. -/
def Obligations.ScheduleSatisfiesTheRecurrence : Prop :=
  ∀ (b : Block) (t : Nat) (_ : t < 64),
    (∀ _ : t < 16, (expand b)[t] = be32 b[4 * t] b[4 * t + 1] b[4 * t + 2] b[4 * t + 3]) ∧
    (∀ _ : 16 ≤ t, (expand b)[t] =
      sigma1 (expand b)[t - 2] + (expand b)[t - 7] + sigma0 (expand b)[t - 15] + (expand b)[t - 16])

/-- R100 (42_compression.md): S_0 is H0, S_{j+1} is the compression of S_j with the schedule
of block j, and the digest is S_N; it is also the fold over the remaining blocks from any S_j. -/
def Obligations.DigestFoldsOverTheBlocks : Prop :=
  ∀ m : List Byte,
    stateAfter m 0 = Rom.H0 ∧
    (∀ j b, (blocks (pad m))[j]? = some b → stateAfter m (j + 1) = compress (stateAfter m j) (expand b)) ∧
    stateAfter m (paddedBlocks m.length) = sha256 m ∧
    ∀ j, foldBlocks (stateAfter m j) ((blocks (pad m)).drop j) = sha256 m

/-- R94 to R99 (42_compression.md): the compression is 64 rounds from the eight state words, then the accumulator. -/
def Obligations.CompressionIsSixtyFourRounds : Prop :=
  ∀ (H : Vector Word 8) (W : Vector Word 64), ∃ v : Fin 65 → Vars,
    v 0 = { a := H[0], b := H[1], c := H[2], d := H[3], e := H[4], f := H[5], g := H[6], h := H[7] } ∧
    (∀ t : Fin 64, ∃ t1 t2 : Word,
      t1 = (v t.castSucc).h + bigSigma1 (v t.castSucc).e + ch (v t.castSucc).e (v t.castSucc).f (v t.castSucc).g +
        Rom.K[t] + W[t] ∧
      t2 = bigSigma0 (v t.castSucc).a + maj (v t.castSucc).a (v t.castSucc).b (v t.castSucc).c ∧
      v t.succ =
        { a := t1 + t2, b := (v t.castSucc).a, c := (v t.castSucc).b, d := (v t.castSucc).c,
          e := (v t.castSucc).d + t1, f := (v t.castSucc).e, g := (v t.castSucc).f, h := (v t.castSucc).g }) ∧
    compress H W = #v[H[0] + (v 64).a, H[1] + (v 64).b, H[2] + (v 64).c, H[3] + (v 64).d, H[4] + (v 64).e,
      H[5] + (v 64).f, H[6] + (v 64).g, H[7] + (v 64).h]

/-- R120 and R121 (43_driver_commands.md): the digest is 32 bytes, byte 4i+k of it byte k of word i, and 64 lowercase
hex digits, digit 8i+k of it the k-th digit of word i from bit 31 down. -/
def Obligations.DigestBytesAndHex : Prop :=
  ∀ H : Vector Word 8,
    (digestBytes H).length = 32 ∧ (hex H).length = 64 ∧
    (∀ i (_ : i < 8), ∀ k, k < 4 → (digestBytes H)[4 * i + k]? = some (H[i].extractLsb' (24 - 8 * k) 8)) ∧
    (∀ i (_ : i < 8), ∀ k, k < 8 → (hex H)[8 * i + k]? =
      ['0', '1', '2', '3', '4', '5', '6', '7', '8', '9', 'a', 'b', 'c', 'd', 'e', 'f'][
        (H[i].extractLsb' (28 - 4 * k) 4).toNat]?)

/-! ## The host bus -/

/-- R59 (30_encoding.md): the STATUS word, field by field, and it is what a read of offset 0x004 returns. -/
def Obligations.StatusWordLayout : Prop :=
  ∀ s : State,
    (statusWord s.core).extractLsb' 8 24 = 0#24 ∧
    (statusWord s.core).extractLsb' 4 4 = (if s.core.phase = .faulted then s.core.fCode else s.core.errCode) ∧
    ((statusWord s.core).getLsbD 3 = true ↔ s.core.phase = .faulted) ∧
    ((statusWord s.core).getLsbD 2 = true ↔ s.core.phase = .faulted ∨ s.core.err = true) ∧
    (statusWord s.core).getLsbD 1 = s.core.done ∧
    ((statusWord s.core).getLsbD 0 = true ↔
      s.core.phase = .split ∨ s.core.phase = .expand ∨ s.core.phase = .vars ∨ s.core.phase = .round ∨
        s.core.phase = .accum) ∧
    ∀ x, busRead 0x004 x s = .next { s with host := s.host.advance.got 0x004 x (statusWord s.core) }

/-- The other registers: CMD reads 0 (R28, 10_state.md); MSG_LEN reads the value last stored, and at an idle core a
write stores the value as written, whatever its size (R26); CAPS reads the parameter MSG_MAX_BYTES (R27); DIGESTi of an
idle core reads H[i] (R30, R116 of 43_driver_commands.md). -/
def Obligations.RegistersReadTheirState : Prop :=
  ∀ (s : State) (x : Nat),
    (s.core.phase = .idle → ∀ v, busWrite 0x008 v s =
      .next { s with host := s.host.advance.wrote 0x008 v, core := { s.core with msgLen := v } }) ∧
    busRead 0x000 x s = .next { s with host := s.host.advance.got 0x000 x 0#32 } ∧
    busRead 0x008 x s = .next { s with host := s.host.advance.got 0x008 x s.core.msgLen } ∧
    (∃ v : Word, busRead 0x00C x s = .next { s with host := s.host.advance.got 0x00C x v } ∧
      (s.params.wf → v.toNat = s.params.msgMaxBytes)) ∧
    (s.core.phase = .idle → ∀ i (_ : i < 8),
      busRead (0x020 + 4 * i) x s = .next { s with host := s.host.advance.got (0x020 + 4 * i) x s.core.H[i] })

/-- R43 (20_memory.md): a host write to message word k of a core neither busy nor faulted writes its four cells, most
significant byte first, and leaves every other cell and everything else alone. -/
def Obligations.WindowWriteStoresFourBytes : Prop :=
  ∀ (s : State) (k : Nat) (v : Word), 4 * k < s.params.msgMaxBytes → s.core.phase.busy = false →
    s.core.phase ≠ .faulted →
    ∃ mem : Memory,
      busWrite (0x1000 + 4 * k) v s =
        .next { s with host := s.host.advance.wrote (0x1000 + 4 * k) v, core := { s.core with msg := mem } } ∧
      mem.read (4 * k) = some (v.extractLsb' 24 8) ∧ mem.read (4 * k + 1) = some (v.extractLsb' 16 8) ∧
      mem.read (4 * k + 2) = some (v.extractLsb' 8 8) ∧ mem.read (4 * k + 3) = some (v.extractLsb' 0 8) ∧
      ∀ i, (i < 4 * k ∨ 4 * k + 3 < i) → mem.read i = s.core.msg.read i

/-- R44 (20_memory.md): a host read of message word k returns, in every phase, the big-endian word of its four cells
and has no effect; an unwritten cell's byte is any value, so nothing is said of it. -/
def Obligations.WindowReadReturnsTheCells : Prop :=
  ∀ (s : State) (k x : Nat), 4 * k < s.params.msgMaxBytes →
    ∃ v : Word,
      busRead (0x1000 + 4 * k) x s = .next { s with host := s.host.advance.got (0x1000 + 4 * k) x v } ∧
      ∀ j b, j < 4 → s.core.msg.read (4 * k + j) = some b → v.extractLsb' (24 - 8 * j) 8 = b

/-- R45 (20_memory.md): while busy or faulted a host write to MSG_LEN or to the message window is ignored. -/
def Obligations.InputWritesAreIgnoredWhileBusy : Prop :=
  ∀ (s : State) (v : Word), (s.core.phase.busy = true ∨ s.core.phase = .faulted) →
    busWrite 0x008 v s = .next { s with host := s.host.advance.wrote 0x008 v } ∧
    ∀ k, 4 * k < s.params.msgMaxBytes →
      busWrite (0x1000 + 4 * k) v s = .next { s with host := s.host.advance.wrote (0x1000 + 4 * k) v }

/-- R41 (20_memory.md): a reserved offset reads 0 and a write to it, or to a read-only register, is ignored. -/
def Obligations.ReservedAndReadOnlyOffsets : Prop :=
  ∀ (s : State) (off x : Nat) (v : Word), off % 4 = 0 →
    ((0x010 ≤ off ∧ off ≤ 0x01C ∨ 0x040 ≤ off ∧ off ≤ 0xFFC) →
      busRead off x s = .next { s with host := s.host.advance.got off x 0#32 } ∧
      busWrite off v s = .next { s with host := s.host.advance.wrote off v }) ∧
    ((off = 0x004 ∨ off = 0x00C ∨ 0x020 ≤ off ∧ off ≤ 0x03C) →
      busWrite off v s = .next { s with host := s.host.advance.wrote off v })

/-- R42 (20_memory.md): the model takes exactly the aligned 32-bit accesses inside the window, in every state, and
refuses every other. -/
def Obligations.AccessesOutsideTheContractAreRefused : Prop :=
  ∀ (op : HostOp) (s : State),
    (op.inContract s.params → ∃ t, hostOp op s = .next t) ∧
    (¬ op.inContract s.params → ∃ e, hostOp op s = .refused e)

/-- R48 (20_memory.md): a read has no effect on the core, in any state and at any offset of the contract, and is
idempotent: repeated on the same core it returns the same value. Nothing is said of the value of DIGESTi at a core that
is not idle, which may differ each time. A write elsewhere than to CMD stores its value (at an idle core, MSG_LEN
at offset 0x008 and the four cells of its word in the window) and does nothing else; a write to CMD is not idempotent: every HASH written to an idle core (with a length that fits) starts a HASH. -/
def Obligations.ReadsHaveNoEffect : Prop :=
  (∀ (s : State) (off x : Nat), off % 4 = 0 → off < 0x1000 + s.params.msgMaxBytes →
    ∃ (v : Word) (d : Nat),
      busRead off x s = .next { s with host := s.host.advance.got off x v, draws := d } ∧
      (¬ (0x020 ≤ off ∧ off < 0x040 ∧ s.core.phase ≠ .idle) →
        d = s.draws ∧ ∀ y g, busRead off y { s with host := g } =
          .next { s with host := g.advance.got off y v })) ∧
  (∀ (s : State) (off : Nat) (v : Word), off % 4 = 0 → off < 0x1000 + s.params.msgMaxBytes → off ≠ 0x000 →
    busWrite off v s = .next { s with
      host := s.host.advance.wrote off v
      core := { s.core with
        msgLen := if off = 0x008 ∧ s.core.phase = .idle then v else s.core.msgLen
        msg := if 0x1000 ≤ off ∧ s.core.phase = .idle then s.core.msg.writeWord ((off - 0x1000) / 4) v
          else s.core.msg } } ∧
    ∀ i, 0x1000 ≤ off → (i < off - 0x1000 ∨ off - 0x1000 + 3 < i) →
      (s.core.msg.writeWord ((off - 0x1000) / 4) v).read i = s.core.msg.read i) ∧
  (∀ s : State, s.core.phase = .idle → s.core.msgLen.toNat ≤ s.params.msgMaxBytes →
    ∃ t, busWrite 0x000 0x00000001#32 s = .next t ∧ t.core.phase = .split ∧ t.core.j = 0 ∧ t.core.H = Rom.H0)

/-- The offset of an access is its address less BASE (R39, 20_memory.md), and `wr OFF, V` and `rd OFF -> X` are the
accesses at BASE + OFF (R64, 30_encoding.md). -/
def Obligations.OffsetsAreAddressesLessBase : Prop :=
  ∀ (s : State) (off x : Nat) (v : Word),
    hostOp (.memWrite (s.params.base + off) 4 v) s = hostOp (.wr off v) s ∧
    hostOp (.memRead (s.params.base + off) 4 x) s = hostOp (.rd off x) s

/-- `bnz X, M, label` goes to the label exactly when (X & M) is not 0, and touches nothing but the host's position
(R64, 30_encoding.md); so the poll of `wait` (R65) goes round while the core stays busy. That `bnz` takes one host turn is
the model's form, log 17. -/
def Obligations.PollLoopsWhileBusy : Prop :=
  (∀ (s : State) (x target : Nat) (m : Word),
    hostOp (.bnz x m target) s =
      .next { s with host := { s.host with
        pc := if s.host.var x &&& m = 0#32 then s.host.pc + 1 else target } }) ∧
  (∀ (s : State) (x : Nat) (rest : List Move), s.sched = .host :: .host :: rest →
    s.host.prog[s.host.pc]? = some (.rd 0x004 x) →
    s.host.prog[s.host.pc + 1]? = some (.bnz x 0x1#32 s.host.pc) →
    ∃ t u, step s = .next t ∧ step t = .next u ∧ u.core = s.core ∧ u.sched = rest ∧
      u.host.pc = (if s.core.phase.busy then s.host.pc else s.host.pc + 2))

/-- The pseudo-instructions' expansions (R65, 30_encoding.md). Two clauses are in the model's form, log 17 (DESIGN
CHOICE): `digest` reads into eight variables in a row, and `load` of 2^32 bytes or more, which no core admits, writes its
count mod 2^32. -/
def Obligations.PseudoInstructionsExpand : Prop :=
  ∀ (labels : Nat → Option Nat) (pos : Nat),
    expandLine labels pos .nop = some [.wr 0x000 0x00000000#32] ∧
    expandLine labels pos .hash = some [.wr 0x000 0x00000001#32] ∧
    (∀ x, expandLine labels pos (.wait x) = some [.rd 0x004 x, .bnz x 0x1#32 pos]) ∧
    (∀ k v, expandLine labels pos (.msgw k v) = some [.wr (0x1000 + 4 * k) v]) ∧
    (∀ bytes : List Byte, ∃ ops last, expandLine labels pos (.load bytes) = some (ops ++ [last]) ∧
      last = .wr 0x008 (BitVec.ofNat 32 bytes.length) ∧
      (∀ k, k < ops.length ↔ 4 * k < bytes.length) ∧
      ∀ k, k < ops.length → ∃ v : Word, ops[k]? = some (.wr (0x1000 + 4 * k) v) ∧
        ∀ j, j < 4 → v.extractLsb' (24 - 8 * j) 8 = bytes.getD (4 * k + j) 0x00#8) ∧
    (∀ x, ∃ ops, expandLine labels pos (.digest x) = some ops ∧ ops.length = 8 ∧
      ∀ i, i < 8 → ops[i]? = some (.rd (0x020 + 4 * i) (x + i)))

/-- A label names the position its line is assembled at (R64, 30_encoding.md): in an assembled program the lines
before a label become exactly as many steps as the label's position says. Where the label is written again after that
line, that it names this first position is the model's choice, log 22 (DESIGN CHOICE). -/
def Obligations.LabelsArePositions : Prop :=
  ∀ (before after : List Line) (l : Nat) (ops : List HostOp),
    assemble (before ++ .label l :: after) = some ops → (∀ ln ∈ before, ln ≠ .label l) →
    ∃ a b, ops = a ++ b ∧ labelPos (before ++ .label l :: after) 0 l = some a.length ∧
      expandLines (labelPos (before ++ .label l :: after) 0) 0 before = some a

/-! ## Reset, and the machine as a whole -/

/-- R36 (10_state.md): the values it gives the state after reset. -/
def Obligations.ResetState : Prop :=
  State.reset.core.phase = .idle ∧ State.reset.core.done = false ∧ State.reset.core.err = false ∧
  State.reset.core.errCode = 0x0#4 ∧ State.reset.core.fCode = 0x0#4 ∧ State.reset.core.msgLen = 0#32 ∧
  (∀ i (_ : i < 8), State.reset.core.H[i] = 0#32) ∧ (∀ i, State.reset.core.msg.read i = none) ∧
  statusWord State.reset.core = 0x00000000#32 ∧ State.reset.params.wf

/-- Reset in mid-run (R140, 70_reset_and_hazards.md): at any time, busy or faulted too, it gives every element the value
R36 gives it, abandons a HASH in progress and clears the model's recorded fault (that reset clears the record is the
model's reading, DEDUCED, log 5); the host and the parameters stay (the model's reading, DEDUCED, log 13). -/
def Obligations.PlatformResetAtAnyTime : Prop :=
  ∀ s : State, nextMove s = .reset →
    ∃ t, step s = .next t ∧ t.host = s.host ∧ t.params = s.params ∧
      t.core.phase = .idle ∧ t.core.done = false ∧ t.core.err = false ∧ t.core.errCode = 0x0#4 ∧
      t.core.fCode = 0x0#4 ∧ t.core.msgLen = 0#32 ∧ (∀ i (_ : i < 8), t.core.H[i] = 0#32) ∧
      (∀ i, t.core.msg.read i = none) ∧ t.core.uninit = none

/-- R141 (70_reset_and_hazards.md): reset is the only way to leave FAULT, and the only way to return a message cell to
unwritten. In FAULT no other step changes the core at all (R131, 60_exceptions.md). -/
def Obligations.OnlyResetLeavesFault : Prop :=
  ∀ s t : State, step s = .next t → nextMove s ≠ .reset →
    (s.core.phase = .faulted → t.core = s.core) ∧
    (∀ i, (s.core.msg.read i).isSome → (t.core.msg.read i).isSome)

/-- R54 (20_memory.md): during a HASH the message cells and MSG_LEN do not change (short of a reset). -/
def Obligations.MessageIsStableWhileBusy : Prop :=
  ∀ s t : State, step s = .next t → nextMove s ≠ .reset → s.core.phase.busy = true →
    (∀ i, t.core.msg.read i = s.core.msg.read i) ∧ t.core.msgLen = s.core.msgLen

/-- R117 (43_driver_commands.md): at an idle core H and DONE stay as they are until the next accepted HASH or reset. -/
def Obligations.DigestPersists : Prop :=
  ∀ s t : State, step s = .next t → nextMove s ≠ .reset → s.core.phase = .idle →
    (t.core.H = s.core.H ∧ t.core.done = s.core.done ∧ t.core.phase = .idle) ∨
    (s.core.msgLen.toNat ≤ s.params.msgMaxBytes ∧ t.core.H = Rom.H0 ∧ t.core.done = false ∧ t.core.phase = .split ∧
      nextMove s = .host)

/-- R128 (60_exceptions.md): an accepted command clears ERR and ERRCODE, and nothing else but reset clears either of
them: a step that does is the host's, of an idle core, and performs NOP or accepts HASH. So an error outlives the
completion of a HASH. -/
def Obligations.ErrorIsSticky : Prop :=
  (∀ (i : Instr) (s : State), s.core.phase = .idle → (i = .hash → s.core.msgLen.toNat ≤ s.params.msgMaxBytes) →
    ∃ t, exec i s = .next t ∧ t.core.err = false ∧ t.core.errCode = 0x0#4) ∧
  (∀ s t : State, step s = .next t → nextMove s ≠ .reset →
    (s.core.err = true ∧ t.core.err = false ∨ s.core.errCode ≠ 0x0#4 ∧ t.core.errCode = 0x0#4) →
    nextMove s = .host ∧ s.core.phase = .idle ∧ t.core.err = false ∧ t.core.errCode = 0x0#4 ∧
      (t.core = { s.core with err := false, errCode := 0x0#4 } ∨ t.core.phase = .split))

/-- No stale DONE (R149, 70_reset_and_hazards.md, R50 of 20_memory.md): from a busy state that meets the invariant, a
step that is no reset leaves the core busy with DONE 0, or idle with DONE 1, and then it was the last ACCUM. -/
def Obligations.DoneIsNeverStale : Prop :=
  ∀ s t : State, s.Inv → step s = .next t → nextMove s ≠ .reset → s.core.phase.busy = true →
    (t.core.phase.busy = true ∧ t.core.done = false) ∨
    (t.core.phase = .idle ∧ t.core.done = true ∧ s.core.phase = .accum ∧ nextMove s = .core)

/-- The invariant holds at reset. R36 (10_state.md) leaves nblk, Lbits, lat_len, j and t unspecified: of these the
invariant holds by the model's own reset values, log 4 (DESIGN CHOICE). -/
def Obligations.InvariantAtReset : Prop := State.reset.Inv

/-- Every step of every agent keeps the invariant: the memory keeps its canonical form and stays inside
MSG_MAX_BYTES, the latches and counters keep their ranges (R15, 10_state.md), no reserved error code is shown (R60,
30_encoding.md), FAULT is not entered (R132, 60_exceptions.md). After a reset turn the clauses on nblk, Lbits, j and t
hold by the model's own reset values, log 4 (DESIGN CHOICE); the clause on the recorded cell is about the model's form
of MsgUninit, log 5. -/
def Obligations.StepKeepsTheInvariant : Prop :=
  ∀ s t : State, s.Inv → step s = .next t → t.Inv

/-- R132 (60_exceptions.md): no run of the core enters FAULT, whatever the host's program, the schedule and the
platform's parameters. -/
def Obligations.FaultIsUnreachable : Prop :=
  ∀ (p : Params) (prog : List HostOp) (sched : List Move) (n : Nat) (t : State), p.wf →
    Sys2Proof.core.run n { State.resetWith p with host := { HostAgent.empty with prog := prog }, sched := sched } =
      .next t →
    t.core.phase ≠ .faulted

/-! ## The result of a HASH -/

/-- Acceptance starts the HASH of the message in memory (R104, 43_driver_commands.md). -/
def Obligations.AcceptanceStartsTheHash : Prop :=
  ∀ (s : State) (m : List Byte), s.core.phase = .idle → s.core.uninit = none →
    s.core.msgLen.toNat = m.length → m.length ≤ s.params.msgMaxBytes → s.core.msg.holds m →
    ∃ t, exec .hash s = .next t ∧ HashInProgress m t.core ∧ remaining t.core = 115 * paddedBlocks m.length

/-- R114 (43_driver_commands.md), step by step: while a HASH of `m` is in progress, every step of every agent but reset
keeps it in progress, or completes it with H = SHA256(m) and DONE = 1. The host may make any access meanwhile. -/
def Obligations.HashProgressIsKept : Prop :=
  ∀ (m : List Byte) (s t : State), HashInProgress m s.core → nextMove s ≠ .reset → step s = .next t →
    HashInProgress m t.core ∨ HashDone m t.core

/-- R113 (43_driver_commands.md): each micro-step brings the completion nearer by exactly one, and no host access
moves it; the core's turn always answers a next state. The count is the spec's decomposition, not a time (R151). -/
def Obligations.EveryMicroStepMakesProgress : Prop :=
  ∀ (m : List Byte) (s : State), HashInProgress m s.core →
    (nextMove s = .core → ∃ t, step s = .next t ∧ remaining t.core + 1 = remaining s.core) ∧
    (nextMove s = .host → ∀ t, step s = .next t → remaining t.core = remaining s.core)

/-- R113 and R114 (43_driver_commands.md): an accepted HASH of l bytes takes exactly 115 * N(l) micro-steps, and at its
completion H = SHA256(M), DONE = 1; the message memory and MSG_LEN are unchanged and ERR, ERRCODE are 0. -/
def Obligations.HashRunsToItsDigest : Prop :=
  ∀ (s : State) (m : List Byte) (rest : List Move), s.core.phase = .idle → s.core.uninit = none →
    s.core.msgLen.toNat = m.length → m.length ≤ s.params.msgMaxBytes → s.core.msg.holds m →
    ∃ t u, exec .hash s = .next t ∧
      Sys2Proof.core.run (115 * paddedBlocks m.length)
        { t with sched := coreTurns (115 * paddedBlocks m.length) rest } = .next u ∧
      HashDone m u.core ∧ u.sched = rest ∧ u.host = s.host ∧ u.params = s.params ∧ u.core.msg = s.core.msg ∧
      u.core.msgLen = s.core.msgLen ∧ u.core.err = false ∧ u.core.errCode = 0x0#4

/-- R114 (43_driver_commands.md) under every interleaving (R49, 20_memory.md): a HASH is accepted with the message `m`
in the memory; whatever accesses the host makes between the micro-steps, and however many turns there are, when the core
is idle for the first time, and no reset has occurred, H = SHA256(m). -/
def Obligations.EveryInterleavingGivesTheDigest : Prop :=
  ∀ (m : List Byte) (s t u : State) (sched : List Move), s.core.phase = .idle → s.core.uninit = none →
    s.core.msgLen.toNat = m.length → m.length ≤ s.params.msgMaxBytes → s.core.msg.holds m → exec .hash s = .next t →
    (∀ mv ∈ sched, mv ≠ .reset) →
    Sys2Proof.core.run sched.length { t with sched := sched } = .next u → u.core.phase = .idle →
    (∀ k v, k < sched.length → Sys2Proof.core.run k { t with sched := sched } = .next v → v.core.phase.busy = true) →
    HashDone m u.core

/-- R122 (43_driver_commands.md), R4 (00_scope.md): the digest does not depend on any earlier command: two idle cores
that agree on MSG_LEN and on the message's cells both accept HASH and, once the core has had turns enough, hold the same
H, whatever H, W, a..h, the latches, the flags and the other cells held. -/
def Obligations.DigestDependsOnTheMessageAlone : Prop :=
  ∀ s₁ s₂ : State,
    s₁.core.phase = .idle → s₂.core.phase = .idle → s₁.core.uninit = none → s₂.core.uninit = none →
    s₁.core.msgLen = s₂.core.msgLen →
    s₁.core.msgLen.toNat ≤ s₁.params.msgMaxBytes → s₂.core.msgLen.toNat ≤ s₂.params.msgMaxBytes →
    (∀ i, i < s₁.core.msgLen.toNat → (s₁.core.msg.read i).isSome ∧ s₁.core.msg.read i = s₂.core.msg.read i) →
    ∃ t₁ t₂ enough, exec .hash s₁ = .next t₁ ∧ exec .hash s₂ = .next t₂ ∧ ∀ n, enough ≤ n → ∃ u₁ u₂,
      Sys2Proof.core.run n { t₁ with sched := coreTurns n [] } = .next u₁ ∧
      Sys2Proof.core.run n { t₂ with sched := coreTurns n [] } = .next u₂ ∧
      u₁.core.H = u₂.core.H ∧ u₁.core.done = true ∧ u₂.core.done = true

/-- R119 (43_driver_commands.md): a HASH with MSG_LEN = 0 is accepted, reads no message byte, processes one block and
completes with the rule's digest, whatever the message memory holds, once the core has had turns enough. -/
def Obligations.EmptyMessageDigest : Prop :=
  ∀ s : State, s.core.phase = .idle → s.core.uninit = none → s.core.msgLen = 0#32 →
    ∃ t enough, exec .hash s = .next t ∧ t.core.nblk = 1 ∧ ∀ n, enough ≤ n → ∃ u,
      Sys2Proof.core.run n { t with sched := coreTurns n [] } = .next u ∧
      u.core.phase = .idle ∧ u.core.done = true ∧
      u.core.H = #v[0xe3b0c442#32, 0x98fc1c14#32, 0x9afbf4c8#32, 0x996fb924#32, 0x27ae41e4#32, 0x649b934c#32,
        0xa495991b#32, 0x7852b855#32]

/-- R113 (43_driver_commands.md): termination as weak fairness of the core's agent. A HASH is accepted with the message
`m` in the memory; in every interleaving without reset that is weakly fair to the core, with a host program that keeps to
the contract (R42, 20_memory.md), the core is busy until it completes with H = SHA256(m). Nothing depends on a number of
micro-steps (R151, 70_reset_and_hazards.md). -/
def Obligations.HashTerminatesUnderWeakFairness : Prop :=
  ∀ (m : List Byte) (s t : State) (order : Nat → Move), s.core.phase = .idle → s.core.uninit = none →
    s.core.msgLen.toNat = m.length → m.length ≤ s.params.msgMaxBytes → s.core.msg.holds m → exec .hash s = .next t →
    (∀ op ∈ s.host.prog, op.inContract s.params) → (∀ k, order k ≠ .reset) → WeaklyFair order t →
    ∃ n u, runTurns order n t = .next u ∧ HashDone m u.core ∧
      ∀ k, k < n → ∃ v, runTurns order k t = .next v ∧ v.core.phase.busy = true
end

