-- ==== Sys2Proof/Laws/Bytes.lean ====
section
/-! SUPPORT. Byte order, and the lengths and entries of the pure functions' results. -/

namespace Sys2Proof.Machine

/-- A word is the big-endian word of its own four bytes (R9, R46). -/
@[simp] theorem be32_byteBe32 (w : Word) :
    be32 (byteBe32 w 0) (byteBe32 w 1) (byteBe32 w 2) (byteBe32 w 3) = w := by
  apply BitVec.eq_of_getLsbD_eq
  intro i hi
  simp only [be32, byteBe32, BitVec.getLsbD_append, BitVec.getLsbD_extractLsb']
  by_cases h0 : i < 8
  · simp [h0]
  · by_cases h1 : i < 16
    · simp [h0, show i - 8 < 8 by omega, show 8 + (i - 8) = i by omega]
    · by_cases h2 : i < 24
      · simp [h0, show ¬ i - 8 < 8 by omega, show i - 8 - 8 < 8 by omega, show 16 + (i - 8 - 8) = i by omega]
      · simp [h0, show ¬ i - 8 < 8 by omega, show ¬ i - 8 - 8 < 8 by omega, show i - 8 - 8 - 8 < 8 by omega,
          show 24 + (i - 8 - 8 - 8) = i by omega]

/-- Each byte of a big-endian word is the byte it was made of (R9, R46). -/
theorem byteBe32_be32 (b0 b1 b2 b3 : Byte) :
    byteBe32 (be32 b0 b1 b2 b3) 0 = b0 ∧ byteBe32 (be32 b0 b1 b2 b3) 1 = b1 ∧
      byteBe32 (be32 b0 b1 b2 b3) 2 = b2 ∧ byteBe32 (be32 b0 b1 b2 b3) 3 = b3 := by
  refine ⟨?_, ?_, ?_, ?_⟩ <;> apply BitVec.eq_of_getLsbD_eq <;> intro i hi <;>
    simp only [byteBe32, be32, BitVec.getLsbD_extractLsb', BitVec.getLsbD_append, hi, decide_true, Bool.true_and]
  · rw [if_neg (by omega), if_neg (by omega), if_neg (by omega)]; congr 1; omega
  · rw [if_neg (by omega), if_neg (by omega), if_pos (by omega)]; congr 1; omega
  · rw [if_neg (by omega), if_pos (by omega)]; congr 1; omega
  · rw [if_pos (by omega)]; congr 1; omega

@[simp] theorem length_bytesBe32 (w : Word) : (bytesBe32 w).length = 4 := rfl

@[simp] theorem length_bytesBe64 (v : BitVec 64) : (bytesBe64 v).length = 8 := by simp [bytesBe64]

/-- The padded length leaves room for the marker and the length field (R68). -/
theorem add_nine_le_paddedLen (l : Nat) : l + 9 ≤ paddedLen l := by
  unfold paddedLen paddedBlocks; omega

@[simp] theorem length_pad (m : List Byte) : (pad m).length = paddedLen m.length := by
  have := add_nine_le_paddedLen m.length
  simp [pad]
  omega

@[simp] theorem length_blocks (q : List Byte) : (blocks q).length = q.length / 64 := by simp [blocks]

/-- The padded message of l bytes has N(l) blocks (R68). -/
theorem length_blocks_pad (m : List Byte) : (blocks (pad m)).length = paddedBlocks m.length := by
  simp [paddedLen]

/-- Block j of a byte sequence holds its bytes 64j to 64j+63 (R75). -/
theorem getElem?_blocks (q : List Byte) (j : Nat) (h : j < q.length / 64) :
    (blocks q)[j]? = some (Vector.ofFn fun k : Fin 64 => q.getD (64 * j + k) 0#8) := by
  simp [blocks, h]

@[simp] theorem length_blockWords (b : Block) : (blockWords b).length = 16 := by simp [blockWords]

/-- Word i of a block is the big-endian word of its bytes 4i to 4i+3 (R76). -/
theorem getElem_blockWords (b : Block) (i : Nat) (h : i < 16) :
    (blockWords b)[i]'(by rw [length_blockWords]; exact h) =
      be32 b[4 * i] b[4 * i + 1] b[4 * i + 2] b[4 * i + 3] := by
  simp only [blockWords, List.getElem_ofFn]

/-- The words of a block whose bytes a function gives. -/
theorem blockWords_of_bytes (g : Nat → Byte) (b : Block) (h : ∀ k (_ : k < 64), b[k] = g k) :
    ((List.range 16).map fun i => be32 (g (4 * i)) (g (4 * i + 1)) (g (4 * i + 2)) (g (4 * i + 3))) = blockWords b := by
  apply List.ext_getElem
  · simp only [List.length_map, List.length_range, length_blockWords]
  · intro i h1 h2
    have hi : i < 16 := by simpa using h1
    rw [getElem_blockWords _ i hi]
    simp only [List.getElem_map, List.getElem_range]
    rw [h, h, h, h]

/-- Loading a block's words changes entries 0 to 15 only. -/
theorem getElem_loadWords (ws : List Word) (W : Vector Word 64) (i : Nat) (h : i < 64) :
    (loadWords ws W)[i] = if i < 16 then ws.getD i W[i] else W[i] := by
  simp [loadWords]

/-- A step of the expansion changes entry t only. -/
theorem getElem_scheduleStep (W : Vector Word 64) (t i : Nat) (hi : i < 64) (h : 16 ≤ t ∧ t < 64) :
    (scheduleStep W t)[i] = if i = t then scheduleWord W t h.1 h.2 else W[i] := by
  simp only [scheduleStep, dif_pos h, Vector.getElem_set]
  split_ifs <;> first | rfl | omega

/-- The first n steps of the expansion leave every entry from 16 + n on alone. -/
theorem getElem_scheduleSteps_above (W : Vector Word 64) (n i : Nat) (hi : i < 64) (h : 16 + n ≤ i) :
    (scheduleSteps W n)[i] = W[i] := by
  induction n with
  | zero => rfl
  | succ n ih =>
    rw [scheduleSteps, getElem_scheduleStep _ _ _ hi (by omega), if_neg (by omega), ih (by omega)]

/-- The steps of the expansion after the first n leave every entry below 16 + n alone. -/
theorem getElem_scheduleSteps_below (W : Vector Word 64) (n k i : Nat) (hi : i < 64) (h : i < 16 + n)
    (hk : n + k ≤ 48) : (scheduleSteps W (n + k))[i] = (scheduleSteps W n)[i] := by
  induction k with
  | zero => rfl
  | succ k ih =>
    rw [← Nat.add_assoc, scheduleSteps, getElem_scheduleStep _ _ _ hi (by omega), if_neg (by omega), ih (by omega)]

/-- The recurrence's word depends on the sixteen entries below t only. -/
theorem scheduleWord_congr {W W' : Vector Word 64} {t : Nat} (h16 : 16 ≤ t) (h : t < 64)
    (same : ∀ i (_ : i < 64), i < t → W[i] = W'[i]) : scheduleWord W t h16 h = scheduleWord W' t h16 h := by
  simp only [scheduleWord]
  rw [same (t - 2) (by omega) (by omega), same (t - 7) (by omega) (by omega), same (t - 15) (by omega) (by omega),
    same (t - 16) (by omega) (by omega)]

/-- Entry i of a block's schedule is there after n steps as soon as i < 16 + n. -/
theorem getElem_expand (b : Block) (i : Nat) (hi : i < 64) (n : Nat) (h : i < 16 + n) (hn : n ≤ 48) :
    (expand b)[i] = (scheduleSteps (loadWords (blockWords b) (Vector.replicate 64 0#32)) n)[i] := by
  have := getElem_scheduleSteps_below (loadWords (blockWords b) (Vector.replicate 64 0#32)) n (48 - n) i hi h
    (by omega)
  rwa [show n + (48 - n) = 48 by omega] at this

/-- One round below 64 is the round function on that round's constant and schedule word. -/
theorem roundAt_of_lt (W : Vector Word 64) {t : Nat} (v : Vars) (h : t < 64) :
    roundAt W t v = roundStep Rom.K[t] W[t] v := by
  simp [roundAt, h]

/-- The fold over blocks threads the state (R102). -/
theorem foldBlocks_append (S : Vector Word 8) (bs cs : List Block) :
    foldBlocks S (bs ++ cs) = foldBlocks (foldBlocks S bs) cs := by
  simp [foldBlocks]

end Sys2Proof.Machine
end

