-- ==== Sys2Proof/Laws/State.lean ====
section
/-! SUPPORT. One lemma per field per update of the state, so that no proof unfolds a record update. -/

namespace Sys2Proof.Machine

/-! ### reject -/

@[simp] theorem reject_H (code : BitVec 4) (c : CoreState) : (reject code c).H = c.H := rfl
@[simp] theorem reject_W (code : BitVec 4) (c : CoreState) : (reject code c).W = c.W := rfl
@[simp] theorem reject_vars (code : BitVec 4) (c : CoreState) : (reject code c).vars = c.vars := rfl
@[simp] theorem reject_msg (code : BitVec 4) (c : CoreState) : (reject code c).msg = c.msg := rfl
@[simp] theorem reject_msgLen (code : BitVec 4) (c : CoreState) : (reject code c).msgLen = c.msgLen := rfl
@[simp] theorem reject_done (code : BitVec 4) (c : CoreState) : (reject code c).done = c.done := rfl
@[simp] theorem reject_err (code : BitVec 4) (c : CoreState) : (reject code c).err = true := rfl
@[simp] theorem reject_errCode (code : BitVec 4) (c : CoreState) : (reject code c).errCode = code := rfl
@[simp] theorem reject_fCode (code : BitVec 4) (c : CoreState) : (reject code c).fCode = c.fCode := rfl
@[simp] theorem reject_phase (code : BitVec 4) (c : CoreState) : (reject code c).phase = c.phase := rfl
@[simp] theorem reject_latLen (code : BitVec 4) (c : CoreState) : (reject code c).latLen = c.latLen := rfl
@[simp] theorem reject_lbits (code : BitVec 4) (c : CoreState) : (reject code c).lbits = c.lbits := rfl
@[simp] theorem reject_nblk (code : BitVec 4) (c : CoreState) : (reject code c).nblk = c.nblk := rfl
@[simp] theorem reject_j (code : BitVec 4) (c : CoreState) : (reject code c).j = c.j := rfl
@[simp] theorem reject_t (code : BitVec 4) (c : CoreState) : (reject code c).t = c.t := rfl
@[simp] theorem reject_uninit (code : BitVec 4) (c : CoreState) : (reject code c).uninit = c.uninit := rfl

/-! ### clearError -/

@[simp] theorem clearError_H (c : CoreState) : (clearError c).H = c.H := rfl
@[simp] theorem clearError_W (c : CoreState) : (clearError c).W = c.W := rfl
@[simp] theorem clearError_vars (c : CoreState) : (clearError c).vars = c.vars := rfl
@[simp] theorem clearError_msg (c : CoreState) : (clearError c).msg = c.msg := rfl
@[simp] theorem clearError_msgLen (c : CoreState) : (clearError c).msgLen = c.msgLen := rfl
@[simp] theorem clearError_done (c : CoreState) : (clearError c).done = c.done := rfl
@[simp] theorem clearError_err (c : CoreState) : (clearError c).err = false := rfl
@[simp] theorem clearError_errCode (c : CoreState) : (clearError c).errCode = ErrCode.noError := rfl
@[simp] theorem clearError_fCode (c : CoreState) : (clearError c).fCode = c.fCode := rfl
@[simp] theorem clearError_phase (c : CoreState) : (clearError c).phase = c.phase := rfl
@[simp] theorem clearError_latLen (c : CoreState) : (clearError c).latLen = c.latLen := rfl
@[simp] theorem clearError_lbits (c : CoreState) : (clearError c).lbits = c.lbits := rfl
@[simp] theorem clearError_nblk (c : CoreState) : (clearError c).nblk = c.nblk := rfl
@[simp] theorem clearError_j (c : CoreState) : (clearError c).j = c.j := rfl
@[simp] theorem clearError_t (c : CoreState) : (clearError c).t = c.t := rfl
@[simp] theorem clearError_uninit (c : CoreState) : (clearError c).uninit = c.uninit := rfl

/-! ### acceptHash -/

@[simp] theorem acceptHash_H (c : CoreState) : (acceptHash c).H = Rom.H0 := rfl
@[simp] theorem acceptHash_W (c : CoreState) : (acceptHash c).W = c.W := rfl
@[simp] theorem acceptHash_vars (c : CoreState) : (acceptHash c).vars = c.vars := rfl
@[simp] theorem acceptHash_msg (c : CoreState) : (acceptHash c).msg = c.msg := rfl
@[simp] theorem acceptHash_msgLen (c : CoreState) : (acceptHash c).msgLen = c.msgLen := rfl
@[simp] theorem acceptHash_done (c : CoreState) : (acceptHash c).done = false := rfl
@[simp] theorem acceptHash_err (c : CoreState) : (acceptHash c).err = false := rfl
@[simp] theorem acceptHash_errCode (c : CoreState) : (acceptHash c).errCode = ErrCode.noError := rfl
@[simp] theorem acceptHash_fCode (c : CoreState) : (acceptHash c).fCode = c.fCode := rfl
@[simp] theorem acceptHash_phase (c : CoreState) : (acceptHash c).phase = .split := rfl
@[simp] theorem acceptHash_latLen (c : CoreState) : (acceptHash c).latLen = c.msgLen := rfl
@[simp] theorem acceptHash_lbits (c : CoreState) : (acceptHash c).lbits = bitLength c.msgLen.toNat := rfl
@[simp] theorem acceptHash_nblk (c : CoreState) : (acceptHash c).nblk = paddedBlocks c.msgLen.toNat := rfl
@[simp] theorem acceptHash_j (c : CoreState) : (acceptHash c).j = 0 := rfl
@[simp] theorem acceptHash_t (c : CoreState) : (acceptHash c).t = c.t := rfl
@[simp] theorem acceptHash_uninit (c : CoreState) : (acceptHash c).uninit = c.uninit := rfl

/-! ### enterFault -/

@[simp] theorem enterFault_H (code : BitVec 4) (c : CoreState) : (enterFault code c).H = c.H := rfl
@[simp] theorem enterFault_W (code : BitVec 4) (c : CoreState) : (enterFault code c).W = c.W := rfl
@[simp] theorem enterFault_vars (code : BitVec 4) (c : CoreState) : (enterFault code c).vars = c.vars := rfl
@[simp] theorem enterFault_msg (code : BitVec 4) (c : CoreState) : (enterFault code c).msg = c.msg := rfl
@[simp] theorem enterFault_msgLen (code : BitVec 4) (c : CoreState) : (enterFault code c).msgLen = c.msgLen := rfl
@[simp] theorem enterFault_done (code : BitVec 4) (c : CoreState) : (enterFault code c).done = false := rfl
@[simp] theorem enterFault_err (code : BitVec 4) (c : CoreState) : (enterFault code c).err = c.err := rfl
@[simp] theorem enterFault_errCode (code : BitVec 4) (c : CoreState) : (enterFault code c).errCode = c.errCode := rfl
@[simp] theorem enterFault_fCode (code : BitVec 4) (c : CoreState) : (enterFault code c).fCode = code := rfl
@[simp] theorem enterFault_phase (code : BitVec 4) (c : CoreState) : (enterFault code c).phase = .faulted := rfl
@[simp] theorem enterFault_latLen (code : BitVec 4) (c : CoreState) : (enterFault code c).latLen = c.latLen := rfl
@[simp] theorem enterFault_lbits (code : BitVec 4) (c : CoreState) : (enterFault code c).lbits = c.lbits := rfl
@[simp] theorem enterFault_nblk (code : BitVec 4) (c : CoreState) : (enterFault code c).nblk = c.nblk := rfl
@[simp] theorem enterFault_j (code : BitVec 4) (c : CoreState) : (enterFault code c).j = c.j := rfl
@[simp] theorem enterFault_t (code : BitVec 4) (c : CoreState) : (enterFault code c).t = c.t := rfl
@[simp] theorem enterFault_uninit (code : BitVec 4) (c : CoreState) : (enterFault code c).uninit = c.uninit := rfl

/-! ### complete -/

@[simp] theorem complete_H (c : CoreState) : (complete c).H = c.H := rfl
@[simp] theorem complete_W (c : CoreState) : (complete c).W = c.W := rfl
@[simp] theorem complete_vars (c : CoreState) : (complete c).vars = c.vars := rfl
@[simp] theorem complete_msg (c : CoreState) : (complete c).msg = c.msg := rfl
@[simp] theorem complete_msgLen (c : CoreState) : (complete c).msgLen = c.msgLen := rfl
@[simp] theorem complete_done (c : CoreState) : (complete c).done = true := rfl
@[simp] theorem complete_err (c : CoreState) : (complete c).err = c.err := rfl
@[simp] theorem complete_errCode (c : CoreState) : (complete c).errCode = c.errCode := rfl
@[simp] theorem complete_fCode (c : CoreState) : (complete c).fCode = c.fCode := rfl
@[simp] theorem complete_phase (c : CoreState) : (complete c).phase = .idle := rfl
@[simp] theorem complete_latLen (c : CoreState) : (complete c).latLen = c.latLen := rfl
@[simp] theorem complete_lbits (c : CoreState) : (complete c).lbits = c.lbits := rfl
@[simp] theorem complete_nblk (c : CoreState) : (complete c).nblk = c.nblk := rfl
@[simp] theorem complete_j (c : CoreState) : (complete c).j = c.j := rfl
@[simp] theorem complete_t (c : CoreState) : (complete c).t = c.t := rfl
@[simp] theorem complete_uninit (c : CoreState) : (complete c).uninit = c.uninit := rfl

/-! ### microExpand -/

@[simp] theorem microExpand_H (c : CoreState) : (microExpand c).H = c.H := rfl
@[simp] theorem microExpand_W (c : CoreState) : (microExpand c).W = scheduleStep c.W c.t := rfl
@[simp] theorem microExpand_vars (c : CoreState) : (microExpand c).vars = c.vars := rfl
@[simp] theorem microExpand_msg (c : CoreState) : (microExpand c).msg = c.msg := rfl
@[simp] theorem microExpand_msgLen (c : CoreState) : (microExpand c).msgLen = c.msgLen := rfl
@[simp] theorem microExpand_done (c : CoreState) : (microExpand c).done = c.done := rfl
@[simp] theorem microExpand_err (c : CoreState) : (microExpand c).err = c.err := rfl
@[simp] theorem microExpand_errCode (c : CoreState) : (microExpand c).errCode = c.errCode := rfl
@[simp] theorem microExpand_fCode (c : CoreState) : (microExpand c).fCode = c.fCode := rfl
@[simp] theorem microExpand_phase (c : CoreState) : (microExpand c).phase = if c.t + 1 = 64 then .vars else .expand := rfl
@[simp] theorem microExpand_latLen (c : CoreState) : (microExpand c).latLen = c.latLen := rfl
@[simp] theorem microExpand_lbits (c : CoreState) : (microExpand c).lbits = c.lbits := rfl
@[simp] theorem microExpand_nblk (c : CoreState) : (microExpand c).nblk = c.nblk := rfl
@[simp] theorem microExpand_j (c : CoreState) : (microExpand c).j = c.j := rfl
@[simp] theorem microExpand_t (c : CoreState) : (microExpand c).t = c.t + 1 := rfl
@[simp] theorem microExpand_uninit (c : CoreState) : (microExpand c).uninit = c.uninit := rfl

/-! ### microVars -/

@[simp] theorem microVars_H (c : CoreState) : (microVars c).H = c.H := rfl
@[simp] theorem microVars_W (c : CoreState) : (microVars c).W = c.W := rfl
@[simp] theorem microVars_vars (c : CoreState) : (microVars c).vars = initVars c.H := rfl
@[simp] theorem microVars_msg (c : CoreState) : (microVars c).msg = c.msg := rfl
@[simp] theorem microVars_msgLen (c : CoreState) : (microVars c).msgLen = c.msgLen := rfl
@[simp] theorem microVars_done (c : CoreState) : (microVars c).done = c.done := rfl
@[simp] theorem microVars_err (c : CoreState) : (microVars c).err = c.err := rfl
@[simp] theorem microVars_errCode (c : CoreState) : (microVars c).errCode = c.errCode := rfl
@[simp] theorem microVars_fCode (c : CoreState) : (microVars c).fCode = c.fCode := rfl
@[simp] theorem microVars_phase (c : CoreState) : (microVars c).phase = .round := rfl
@[simp] theorem microVars_latLen (c : CoreState) : (microVars c).latLen = c.latLen := rfl
@[simp] theorem microVars_lbits (c : CoreState) : (microVars c).lbits = c.lbits := rfl
@[simp] theorem microVars_nblk (c : CoreState) : (microVars c).nblk = c.nblk := rfl
@[simp] theorem microVars_j (c : CoreState) : (microVars c).j = c.j := rfl
@[simp] theorem microVars_t (c : CoreState) : (microVars c).t = 0 := rfl
@[simp] theorem microVars_uninit (c : CoreState) : (microVars c).uninit = c.uninit := rfl

/-! ### microRound -/

@[simp] theorem microRound_H (c : CoreState) : (microRound c).H = c.H := rfl
@[simp] theorem microRound_W (c : CoreState) : (microRound c).W = c.W := rfl
@[simp] theorem microRound_vars (c : CoreState) : (microRound c).vars = roundAt c.W c.t c.vars := rfl
@[simp] theorem microRound_msg (c : CoreState) : (microRound c).msg = c.msg := rfl
@[simp] theorem microRound_msgLen (c : CoreState) : (microRound c).msgLen = c.msgLen := rfl
@[simp] theorem microRound_done (c : CoreState) : (microRound c).done = c.done := rfl
@[simp] theorem microRound_err (c : CoreState) : (microRound c).err = c.err := rfl
@[simp] theorem microRound_errCode (c : CoreState) : (microRound c).errCode = c.errCode := rfl
@[simp] theorem microRound_fCode (c : CoreState) : (microRound c).fCode = c.fCode := rfl
@[simp] theorem microRound_phase (c : CoreState) : (microRound c).phase = if c.t + 1 = 64 then .accum else .round := rfl
@[simp] theorem microRound_latLen (c : CoreState) : (microRound c).latLen = c.latLen := rfl
@[simp] theorem microRound_lbits (c : CoreState) : (microRound c).lbits = c.lbits := rfl
@[simp] theorem microRound_nblk (c : CoreState) : (microRound c).nblk = c.nblk := rfl
@[simp] theorem microRound_j (c : CoreState) : (microRound c).j = c.j := rfl
@[simp] theorem microRound_t (c : CoreState) : (microRound c).t = c.t + 1 := rfl
@[simp] theorem microRound_uninit (c : CoreState) : (microRound c).uninit = c.uninit := rfl

/-! ### HostAgent.advance -/

@[simp] theorem HostAgent.advance_prog (g : HostAgent) : (g.advance).prog = g.prog := rfl
@[simp] theorem HostAgent.advance_pc (g : HostAgent) : (g.advance).pc = g.pc + 1 := rfl
@[simp] theorem HostAgent.advance_vars (g : HostAgent) : (g.advance).vars = g.vars := rfl
@[simp] theorem HostAgent.advance_log (g : HostAgent) : (g.advance).log = g.log := rfl

/-! ### HostAgent.wrote -/

@[simp] theorem HostAgent.wrote_prog (g : HostAgent) (off : Nat) (v : Word) : (g.wrote off v).prog = g.prog := rfl
@[simp] theorem HostAgent.wrote_pc (g : HostAgent) (off : Nat) (v : Word) : (g.wrote off v).pc = g.pc := rfl
@[simp] theorem HostAgent.wrote_vars (g : HostAgent) (off : Nat) (v : Word) : (g.wrote off v).vars = g.vars := rfl
@[simp] theorem HostAgent.wrote_log (g : HostAgent) (off : Nat) (v : Word) : (g.wrote off v).log = g.log ++ [⟨true, off, v⟩] := rfl

/-! ### HostAgent.got -/

@[simp] theorem HostAgent.got_prog (g : HostAgent) (off x : Nat) (v : Word) : (g.got off x v).prog = g.prog := rfl
@[simp] theorem HostAgent.got_pc (g : HostAgent) (off x : Nat) (v : Word) : (g.got off x v).pc = g.pc := rfl
@[simp] theorem HostAgent.got_vars (g : HostAgent) (off x : Nat) (v : Word) : (g.got off x v).vars = cellPut g.vars x v := rfl
@[simp] theorem HostAgent.got_log (g : HostAgent) (off x : Nat) (v : Word) : (g.got off x v).log = g.log ++ [⟨false, off, v⟩] := rfl

/-! ### platformReset -/

@[simp] theorem platformReset_core (s : State) : (platformReset s).core = CoreState.reset := rfl
@[simp] theorem platformReset_host (s : State) : (platformReset s).host = s.host := rfl
@[simp] theorem platformReset_params (s : State) : (platformReset s).params = s.params := rfl
@[simp] theorem platformReset_sched (s : State) : (platformReset s).sched = s.sched := rfl
@[simp] theorem platformReset_draws (s : State) : (platformReset s).draws = s.draws := rfl
@[simp] theorem platformReset_resets (s : State) : (platformReset s).resets = s.resets + 1 := rfl

/-! ### illegalCommand -/

@[simp] theorem illegalCommand_core (s : State) : (illegalCommand s).core = commandGate (reject ErrCode.illegalCmd) s.core := rfl
@[simp] theorem illegalCommand_host (s : State) : (illegalCommand s).host = s.host := rfl
@[simp] theorem illegalCommand_params (s : State) : (illegalCommand s).params = s.params := rfl
@[simp] theorem illegalCommand_sched (s : State) : (illegalCommand s).sched = s.sched := rfl
@[simp] theorem illegalCommand_draws (s : State) : (illegalCommand s).draws = s.draws := rfl
@[simp] theorem illegalCommand_resets (s : State) : (illegalCommand s).resets = s.resets := rfl

/-! ### State.resetWith -/

@[simp] theorem State.resetWith_core (p : Params) : (State.resetWith p).core = CoreState.reset := rfl
@[simp] theorem State.resetWith_host (p : Params) : (State.resetWith p).host = HostAgent.empty := rfl
@[simp] theorem State.resetWith_params (p : Params) : (State.resetWith p).params = p := rfl
@[simp] theorem State.resetWith_sched (p : Params) : (State.resetWith p).sched = [] := rfl
@[simp] theorem State.resetWith_draws (p : Params) : (State.resetWith p).draws = 0 := rfl
@[simp] theorem State.resetWith_resets (p : Params) : (State.resetWith p).resets = 0 := rfl

/-! ### The turn -/

@[simp] theorem takeTurn_core (s : State) : (takeTurn s).core = s.core := by unfold takeTurn; split <;> rfl
@[simp] theorem takeTurn_host (s : State) : (takeTurn s).host = s.host := by unfold takeTurn; split <;> rfl
@[simp] theorem takeTurn_params (s : State) : (takeTurn s).params = s.params := by unfold takeTurn; split <;> rfl
@[simp] theorem takeTurn_resets (s : State) : (takeTurn s).resets = s.resets := by unfold takeTurn; split <;> rfl

/-- A schedule that names an agent gives it the turn. -/
theorem nextMove_cons (s : State) (m : Move) (rest : List Move) (h : s.sched = m :: rest) : nextMove s = m := by
  simp [nextMove, h]

/-- The turn is taken off the schedule, and nothing else changes. -/
theorem takeTurn_cons (s : State) (m : Move) (rest : List Move) (h : s.sched = m :: rest) :
    takeTurn s = { s with sched := rest } := by
  simp [takeTurn, h]

/-- A step under a schedule that names an agent is that agent's turn. -/
theorem step_cons (s : State) (m : Move) (rest : List Move) (h : s.sched = m :: rest) :
    step s = runMove m { s with sched := rest } := by
  rw [step, nextMove_cons s m rest h, takeTurn_cons s m rest h]

/-! ### The phases -/

theorem Phase.busy_eq_false {ph : Phase} : ph.busy = false ↔ ph = .idle ∨ ph = .faulted := by cases ph <;> decide
theorem Phase.fault_eq_true {ph : Phase} : ph.fault = true ↔ ph = .faulted := by cases ph <;> decide
theorem Phase.fault_of_busy {ph : Phase} (h : ph.busy = true) : ph.fault = false := by
  cases ph <;> first | rfl | cases h
theorem Phase.ne_idle_of_busy {ph : Phase} (h : ph.busy = true) : ph ≠ .idle := by
  rintro rfl; cases h

end Sys2Proof.Machine
end

