-- ==== Sys2Proof/Laws/Memory.lean ====
section
/-! SUPPORT. The message memory and the host's variables as sparse tables: read after write, and the canonical form. -/

namespace Sys2Proof.Machine

variable {β : Type}

@[simp] theorem cellGet_cellPut_same (l : List (Nat × β)) (a : Nat) (v : β) : cellGet (cellPut l a v) a = some v := by
  induction l with
  | nil => simp [cellPut, cellGet]
  | cons p rest ih =>
    obtain ⟨k, w⟩ := p
    simp only [cellPut]
    split
    · simp [cellGet]
    · split
      · simp [cellGet]
      · simp [cellGet, *]

theorem cellGet_cellPut_other (l : List (Nat × β)) {a b : Nat} (v : β) (h : b ≠ a) :
    cellGet (cellPut l a v) b = cellGet l b := by
  induction l with
  | nil => simp [cellPut, cellGet, h]
  | cons p rest ih =>
    obtain ⟨k, w⟩ := p
    simp only [cellPut]
    split
    · simp [cellGet, h]
    · split
      · rename_i hk
        subst hk
        simp [cellGet, h]
      · simp [cellGet, ih]

/-- One lookup after one store, at any key. -/
theorem cellGet_cellPut (l : List (Nat × β)) (a b : Nat) (v : β) :
    cellGet (cellPut l a v) b = if b = a then some v else cellGet l b := by
  split
  · next h => subst h; simp
  · next h => exact cellGet_cellPut_other l v h

/-- Every key of the table after a store is the stored key or was a key before. -/
theorem mem_cellPut {l : List (Nat × β)} {a : Nat} {v : β} {p : Nat × β} (h : p ∈ cellPut l a v) :
    p.1 = a ∨ p ∈ l := by
  induction l with
  | nil => simp_all [cellPut]
  | cons q rest ih =>
    obtain ⟨k, w⟩ := q
    simp only [cellPut] at h
    split at h
    · simp only [List.mem_cons] at h
      rcases h with rfl | h
      · exact .inl rfl
      · exact .inr (by simpa using h)
    · split at h
      · simp only [List.mem_cons] at h
        rcases h with rfl | h
        · exact .inl rfl
        · exact .inr (by simp [h])
      · simp only [List.mem_cons] at h
        rcases h with rfl | h
        · exact .inr (by simp)
        · rcases ih h with h | h
          · exact .inl h
          · exact .inr (by simp [h])

/-- A store keeps the canonical form. -/
theorem cellPut_wf {l : List (Nat × β)} (a : Nat) (v : β) (h : cellsWf l) : cellsWf (cellPut l a v) := by
  induction l with
  | nil => simp [cellPut, cellsWf]
  | cons q rest ih =>
    obtain ⟨k, w⟩ := q
    obtain ⟨hk, hr⟩ := List.pairwise_cons.mp h
    simp only [cellPut]
    split
    · next ha =>
      refine List.pairwise_cons.mpr ⟨?_, h⟩
      intro p hp
      rcases List.mem_cons.mp hp with rfl | hp
      · exact ha
      · exact lt_trans ha (hk p hp)
    · split
      · next hne he =>
        subst he
        exact List.pairwise_cons.mpr ⟨hk, hr⟩
      · next h1 h2 =>
        refine List.pairwise_cons.mpr ⟨?_, ih hr⟩
        intro p hp
        rcases mem_cellPut hp with h | h
        · show k < p.1
          omega
        · exact hk p h

theorem Memory.read_write (m : Memory) (i k : Nat) (b : Byte) :
    (m.write i b).read k = if k = i then some b else m.read k := cellGet_cellPut m i k b

/-- A byte store keeps the memory's canonical form. -/
theorem Memory.write_wf {m : Memory} (i : Nat) (b : Byte) (h : m.wf) : (m.write i b).wf := cellPut_wf i b h

/-- A window store keeps the memory's canonical form. -/
theorem Memory.writeWord_wf {m : Memory} (k : Nat) (v : Word) (h : m.wf) : (m.writeWord k v).wf :=
  Memory.write_wf _ _ (Memory.write_wf _ _ (Memory.write_wf _ _ (Memory.write_wf _ _ h)))

/-- What a window store to word `k` leaves in each cell. -/
theorem Memory.read_writeWord (m : Memory) (k i : Nat) (v : Word) :
    (m.writeWord k v).read i =
      if i = 4 * k + 3 then some (byteBe32 v 3)
      else if i = 4 * k + 2 then some (byteBe32 v 2)
      else if i = 4 * k + 1 then some (byteBe32 v 1)
      else if i = 4 * k then some (byteBe32 v 0)
      else m.read i := by
  simp only [Memory.writeWord, Memory.read_write]

/-- A window store leaves every cell outside its four alone. -/
theorem Memory.read_writeWord_other (m : Memory) {k i : Nat} (v : Word) (h : i < 4 * k ∨ 4 * k + 3 < i) :
    (m.writeWord k v).read i = m.read i := by
  rw [Memory.read_writeWord, if_neg (by omega), if_neg (by omega), if_neg (by omega), if_neg (by omega)]

/-- A window store makes no cell unwritten. -/
theorem Memory.isSome_read_writeWord (m : Memory) (k i : Nat) (v : Word) (h : (m.read i).isSome) :
    ((m.writeWord k v).read i).isSome := by
  rw [Memory.read_writeWord]
  split_ifs <;> simp [h]

theorem Memory.readOrFree_of_some {m : Memory} {resets i : Nat} {b : Byte} (h : m.read i = some b) :
    m.readOrFree resets i = b := by
  simp [Memory.readOrFree, h]

@[simp] theorem Memory.wf_nil : Memory.wf [] := List.Pairwise.nil

theorem reset_msg_wf : State.reset.core.msg.wf := List.Pairwise.nil

end Sys2Proof.Machine
end

