-- ==== Sys2Proof/Laws/Ops.lean ====
section
/-! SUPPORT. One lemma per shared operation: what it does, case by case. -/

namespace Sys2Proof.Machine

/-! ### The gate before every command -/

theorem commandGate_faulted (f : CoreState → CoreState) {c : CoreState} (h : c.phase = .faulted) :
    commandGate f c = c := by
  simp [commandGate, h, Phase.fault]

theorem commandGate_busy (f : CoreState → CoreState) {c : CoreState} (h : c.phase.busy = true) :
    commandGate f c = reject ErrCode.cmdWhileBusy c := by
  simp [commandGate, h, Phase.fault_of_busy h]

theorem commandGate_idle (f : CoreState → CoreState) {c : CoreState} (h : c.phase = .idle) :
    commandGate f c = f c := by
  simp [commandGate, h, Phase.fault, Phase.busy]

/-- A core is idle, busy or faulted. -/
theorem Phase.idle_or_busy_or_faulted (ph : Phase) : ph = .idle ∨ ph.busy = true ∨ ph = .faulted := by
  cases ph <;> simp [Phase.busy]

/-- What a gated command can do. -/
theorem commandGate_cases (f : CoreState → CoreState) (c : CoreState) :
    (c.phase = .faulted ∧ commandGate f c = c) ∨
    (c.phase.busy = true ∧ commandGate f c = reject ErrCode.cmdWhileBusy c) ∨
    (c.phase = .idle ∧ commandGate f c = f c) := by
  rcases Phase.idle_or_busy_or_faulted c.phase with h | h | h
  · exact .inr (.inr ⟨h, commandGate_idle f h⟩)
  · exact .inr (.inl ⟨h, commandGate_busy f h⟩)
  · exact .inl ⟨h, commandGate_faulted f h⟩

theorem hashWhenIdle_fits {p : Params} {c : CoreState} (h : c.msgLen.toNat ≤ p.msgMaxBytes) :
    hashWhenIdle p c = acceptHash c := by
  simp [hashWhenIdle, Nat.not_lt.mpr h]

theorem hashWhenIdle_long {p : Params} {c : CoreState} (h : p.msgMaxBytes < c.msgLen.toNat) :
    hashWhenIdle p c = reject ErrCode.lenRange c := by
  simp [hashWhenIdle, h]

/-! ### Writes to CMD -/

/-- What a CMD write can do to the core, whatever the word. -/
inductive CmdEffect (p : Params) (c : CoreState) : CoreState → Prop where
  | ignored (h : c.phase = .faulted) : CmdEffect p c c
  | busy (h : c.phase.busy = true) : CmdEffect p c (reject ErrCode.cmdWhileBusy c)
  | illegal (h : c.phase = .idle) : CmdEffect p c (reject ErrCode.illegalCmd c)
  | nop (h : c.phase = .idle) : CmdEffect p c (clearError c)
  | long (h : c.phase = .idle) (hl : p.msgMaxBytes < c.msgLen.toNat) : CmdEffect p c (reject ErrCode.lenRange c)
  | hash (h : c.phase = .idle) (hl : c.msgLen.toNat ≤ p.msgMaxBytes) : CmdEffect p c (acceptHash c)

/-- A CMD write answers a next state that differs in the core only, by one of the effects. -/
theorem cmdWrite_effect (v : Word) (s : State) :
    ∃ c, cmdWrite v s = .next { s with core := c } ∧ CmdEffect s.params s.core c := by
  have gate : ∀ f : CoreState → CoreState, (s.core.phase = .idle → CmdEffect s.params s.core (f s.core)) →
      CmdEffect s.params s.core (commandGate f s.core) := by
    intro f hf
    rcases commandGate_cases f s.core with ⟨h, e⟩ | ⟨h, e⟩ | ⟨h, e⟩ <;> rw [e]
    · exact .ignored h
    · exact .busy h
    · exact hf h
  unfold cmdWrite
  split
  · rename_i i _
    cases i
    · exact ⟨_, rfl, gate _ .nop⟩
    · refine ⟨_, rfl, gate _ fun h => ?_⟩
      rcases Nat.lt_or_ge s.params.msgMaxBytes s.core.msgLen.toNat with hl | hl
      · rw [hashWhenIdle_long hl]; exact .long h hl
      · rw [hashWhenIdle_fits hl]; exact .hash h hl
  · exact ⟨_, rfl, gate _ .illegal⟩

/-! ### Inputs the host writes -/

theorem inputsLocked_eq (c : CoreState) : c.inputsLocked = true ↔ c.phase ≠ .idle := by
  unfold CoreState.inputsLocked
  cases c.phase <;> decide

theorem setMsgLen_idle (v : Word) {c : CoreState} (h : c.phase = .idle) : setMsgLen v c = { c with msgLen := v } := by
  have : ¬ c.inputsLocked = true := by simp [inputsLocked_eq, h]
  simp [setMsgLen, this]

theorem setMsgLen_locked (v : Word) {c : CoreState} (h : c.phase ≠ .idle) : setMsgLen v c = c := by
  simp [setMsgLen, (inputsLocked_eq c).mpr h]

theorem setMsgWord_idle (k : Nat) (v : Word) {c : CoreState} (h : c.phase = .idle) :
    setMsgWord k v c = { c with msg := c.msg.writeWord k v } := by
  have : ¬ c.inputsLocked = true := by simp [inputsLocked_eq, h]
  simp [setMsgWord, this]

theorem setMsgWord_locked (k : Nat) (v : Word) {c : CoreState} (h : c.phase ≠ .idle) : setMsgWord k v c = c := by
  simp [setMsgWord, (inputsLocked_eq c).mpr h]

end Sys2Proof.Machine
end

