-- ==== Sys2Proof/Laws/PerInstr.lean ====
section
/-! SUPPORT. Per-instruction families: facts about each command as syntax. -/

namespace Sys2Proof.Laws.EncodedWord

/-- A command's word is legal, has RSVD = 0 and carries its own operation code (R55 to R57, 30_encoding.md). -/
def Statement (i : Instr) : Prop :=
  i.wellFormed = true ∧ legalWord (encode i) ∧ rsvdField (encode i) = 0#28 ∧ opField (encode i) = opCode i

theorem nop : Statement .nop := by unfold Statement; decide

theorem hash : Statement .hash := by unfold Statement; decide

end Sys2Proof.Laws.EncodedWord
end

