-- ==== Sys2Proof/Laws/Sequencer.lean ====
section
/-! SUPPORT. What the core's agent can do in one micro-step. -/

namespace Sys2Proof.Machine

/-! ### Operands -/

theorem msgByte_ok {c : CoreState} {i : Nat} {b : Byte} (h : c.msg.read i = some b) : msgByte c i = .ok b := by
  simp [msgByte, h]

/-- A padded byte is missing only where a message byte is: the error names that cell. -/
theorem padByte_error {c : CoreState} {i k : Nat} (h : padByte c i = .error k) :
    k = i ∧ i < c.latLen.toNat ∧ c.msg.read i = none := by
  unfold padByte at h
  split at h
  · next hi =>
    unfold msgByte at h
    split at h
    · cases h
    · next hr => exact ⟨by cases h; rfl, hi, hr⟩
  · split at h
    · cases h
    · split at h
      · cases h
      · split at h <;> cases h

/-- The word at padded byte i is there when its four bytes are. -/
theorem padWord_ok {c : CoreState} {i : Nat} {b0 b1 b2 b3 : Byte} (h0 : padByte c i = .ok b0)
    (h1 : padByte c (i + 1) = .ok b1) (h2 : padByte c (i + 2) = .ok b2) (h3 : padByte c (i + 3) = .ok b3) :
    padWord c i = .ok (be32 b0 b1 b2 b3) := by
  simp [padWord, h0, h1, h2, h3, bind, Except.bind, pure, Except.pure]

/-- A padded word fails only on an unwritten message cell among its four. -/
theorem padWord_error {c : CoreState} {i k : Nat} (h : padWord c i = .error k) :
    i ≤ k ∧ k < i + 4 ∧ k < c.latLen.toNat ∧ c.msg.read k = none := by
  simp only [padWord, bind, Except.bind, pure, Except.pure] at h
  split at h
  · next e =>
    cases h
    obtain ⟨rfl, h1, h2⟩ := padByte_error e
    exact ⟨by omega, by omega, h1, h2⟩
  split at h
  · next e =>
    cases h
    obtain ⟨rfl, h1, h2⟩ := padByte_error e
    exact ⟨by omega, by omega, h1, h2⟩
  split at h
  · next e =>
    cases h
    obtain ⟨rfl, h1, h2⟩ := padByte_error e
    exact ⟨by omega, by omega, h1, h2⟩
  split at h
  · next e =>
    cases h
    obtain ⟨rfl, h1, h2⟩ := padByte_error e
    exact ⟨by omega, by omega, h1, h2⟩
  · cases h

/-- A list of computations that all succeed. -/
theorem mapM_ok {α β ε : Type} (f : α → Except ε β) (g : α → β) :
    ∀ l : List α, (∀ a ∈ l, f a = .ok (g a)) → l.mapM f = .ok (l.map g)
  | [], _ => rfl
  | a :: l, h => by
    have ih := mapM_ok f g l fun b hb => h b (by simp [hb])
    simp [List.mapM_cons, h a (by simp), ih, bind, Except.bind, pure, Except.pure]

/-- A list of computations that fails, fails in one of them. -/
theorem mapM_error {α β ε : Type} {f : α → Except ε β} {e : ε} :
    ∀ {l : List α}, l.mapM f = .error e → ∃ a ∈ l, f a = .error e
  | [], h => by cases h
  | a :: l, h => by
    simp only [List.mapM_cons, bind, Except.bind, pure, Except.pure] at h
    split at h
    · next ha => cases h; exact ⟨a, by simp, ha⟩
    · split at h
      · next hl =>
        cases h
        obtain ⟨b, hb, he⟩ := mapM_error hl
        exact ⟨b, by simp [hb], he⟩
      · cases h

/-- The block's words fail only on an unwritten message cell of the block. -/
theorem splitWords_error {c : CoreState} {k : Nat} (h : splitWords c = .error k) :
    64 * c.j ≤ k ∧ k < 64 * c.j + 64 ∧ k < c.latLen.toNat ∧ c.msg.read k = none := by
  obtain ⟨i, hi, he⟩ := mapM_error h
  have hi : i < 16 := by simpa using hi
  obtain ⟨h1, h2, h3, h4⟩ := padWord_error he
  exact ⟨by omega, by omega, h3, h4⟩

/-- A list of computations that fails: the ones before the failing one all succeed. -/
theorem mapM_error_first {α β ε : Type} {f : α → Except ε β} {e : ε} :
    ∀ {l : List α}, l.mapM f = .error e →
      ∃ pre a post, l = pre ++ a :: post ∧ f a = .error e ∧ ∀ b ∈ pre, ∃ v, f b = .ok v
  | [], h => by cases h
  | a :: l, h => by
    simp only [List.mapM_cons, bind, Except.bind, pure, Except.pure] at h
    split at h
    · next ha => cases h; exact ⟨[], a, l, rfl, ha, by simp⟩
    · next v hv =>
      split at h
      · next hl =>
        cases h
        obtain ⟨pre, b, post, hb, he, hp⟩ := mapM_error_first hl
        refine ⟨a :: pre, b, post, by simp [hb], he, fun x hx => ?_⟩
        rcases List.mem_cons.mp hx with rfl | hx
        · exact ⟨v, hv⟩
        · exact hp x hx
      · cases h

/-- A padded byte is there unless it is an unwritten message byte. -/
theorem padByte_ok {c : CoreState} {i : Nat} (h : i < c.latLen.toNat → (c.msg.read i).isSome) :
    ∃ b, padByte c i = .ok b := by
  cases hx : padByte c i with
  | ok b => exact ⟨b, rfl⟩
  | error e =>
    obtain ⟨_, h1, h2⟩ := padByte_error hx
    have := h h1
    simp [h2] at this

/-- The block's sixteen words, when its 64 padded bytes are there. -/
theorem splitWords_ok {c : CoreState} {g : Nat → Byte}
    (h : ∀ k, k < 64 → padByte c (64 * c.j + k) = .ok (g k)) :
    splitWords c = .ok ((List.range 16).map fun i =>
      be32 (g (4 * i)) (g (4 * i + 1)) (g (4 * i + 2)) (g (4 * i + 3))) := by
  refine mapM_ok (fun i => padWord c (64 * c.j + 4 * i)) _ _ fun i hi => ?_
  have hi : i < 16 := by simpa using hi
  exact padWord_ok (h (4 * i) (by omega)) (h (4 * i + 1) (by omega)) (h (4 * i + 2) (by omega))
    (h (4 * i + 3) (by omega))

/-- The operands of SPLIT depend on the latches, the block index and the message memory only. -/
theorem splitWords_congr {c d : CoreState} (h1 : d.latLen = c.latLen) (h2 : d.lbits = c.lbits) (h3 : d.msg = c.msg)
    (h4 : d.j = c.j) : splitWords d = splitWords c := by
  have pb : ∀ i, padByte d i = padByte c i := fun i => by simp [padByte, msgByte, h1, h2, h3]
  simp [splitWords, padWord, pb, h4]

/-! ### One micro-step -/

/-- What SPLIT can do. -/
theorem microSplit_cases (c : CoreState) :
    (∃ ws, c.j < c.nblk ∧ splitWords c = .ok ws ∧
      microSplit c = { c with W := loadWords ws c.W, t := 16, phase := .expand }) ∨
    (∃ i, c.j < c.nblk ∧ splitWords c = .error i ∧ microSplit c = { c with uninit := some i }) ∨
    (¬ c.j < c.nblk ∧ microSplit c = enterFault ErrCode.internal c) := by
  unfold microSplit
  split
  · next hj =>
    split
    · next ws h => exact .inl ⟨ws, hj, h, rfl⟩
    · next i h => exact .inr (.inl ⟨i, hj, h, rfl⟩)
  · next hj => exact .inr (.inr ⟨hj, rfl⟩)

/-- What ACCUM can do. -/
theorem microAccum_cases (c : CoreState) :
    (c.j + 1 < c.nblk ∧
      microAccum c = { c with H := accumulate c.H c.vars, j := c.j + 1, phase := .split }) ∨
    (¬ c.j + 1 < c.nblk ∧
      microAccum c = { c with H := accumulate c.H c.vars, j := c.j + 1, phase := .idle, done := true }) := by
  unfold microAccum
  split
  · next h => exact .inl ⟨h, rfl⟩
  · next h => exact .inr ⟨h, rfl⟩

/-- What the core's agent can do in its turn. -/
inductive CoreEffect (c : CoreState) : CoreState → Prop where
  | none (h : c.phase.busy = false) : CoreEffect c c
  | split (h : c.phase = .split) : CoreEffect c (microSplit c)
  | expand (h : c.phase = .expand) (ht : 16 ≤ c.t ∧ c.t < 64) : CoreEffect c (microExpand c)
  | vars (h : c.phase = .vars) : CoreEffect c (microVars c)
  | round (h : c.phase = .round) (ht : c.t < 64) : CoreEffect c (microRound c)
  | accum (h : c.phase = .accum) : CoreEffect c (microAccum c)

/-- If the core's turn answers a next state, it is one of the micro-steps, and no fault was recorded. -/
theorem coreStep_effect {c c' : CoreState} (h : coreStep c = .next c') : c.uninit = none ∧ CoreEffect c c' := by
  unfold coreStep at h
  split at h
  · cases h
  · next hu =>
    refine ⟨hu, ?_⟩
    split at h
    · next hp => cases h; exact .none (by rw [hp]; rfl)
    · next hp => cases h; exact .none (by rw [hp]; rfl)
    · next hp => cases h; exact .split hp
    · next hp =>
      split at h
      · next ht => cases h; exact .expand hp ht
      · cases h
    · next hp => cases h; exact .vars hp
    · next hp =>
      split at h
      · next ht => cases h; exact .round hp ht
      · cases h
    · next hp => cases h; exact .accum hp

/-- No micro-step touches the message memory, MSG_LEN, the latched length or the error status. -/
theorem coreStep_frame {c c' : CoreState} (h : coreStep c = .next c') :
    c'.msg = c.msg ∧ c'.msgLen = c.msgLen ∧ c'.latLen = c.latLen ∧ c'.lbits = c.lbits ∧ c'.nblk = c.nblk ∧
      c'.err = c.err ∧ c'.errCode = c.errCode := by
  obtain ⟨_, e⟩ := coreStep_effect h
  cases e with
  | none => simp
  | split =>
    rcases microSplit_cases c with ⟨ws, _, _, e⟩ | ⟨i, _, _, e⟩ | ⟨_, e⟩ <;> rw [e] <;> simp
  | expand => simp
  | vars => simp
  | round => simp
  | accum => rcases microAccum_cases c with ⟨_, e⟩ | ⟨_, e⟩ <;> rw [e] <;> simp

/-- The core's turn in the whole machine touches the core only. -/
theorem coreMove_next {s s' : State} (h : coreMove s = .next s') :
    ∃ c, coreStep s.core = .next c ∧ s' = { s with core := c } := by
  unfold coreMove at h
  split at h
  · next c hc => cases h; exact ⟨c, hc, rfl⟩
  · cases h
  · cases h

end Sys2Proof.Machine
end

