-- ==== Sys2Proof/Laws/Step.lean ====
section
/-! SUPPORT. What one step of the whole machine can do. -/

namespace Sys2Proof.Machine

/-! ### The register map -/

/-- An access that is not refused is aligned and names a target. -/
theorem access_ok {p : Params} {off : Nat} {r : Target} (h : access p off = .ok r) :
    off % 4 = 0 ∧ targetOf p off = some r := by
  unfold access at h
  split at h
  · next ha =>
    split at h
    · next r' hr => cases h; exact ⟨ha, hr⟩
    · cases h
  · cases h

/-- The window word a target names lies inside the message memory. -/
theorem targetOf_msgWord {p : Params} {off k : Nat} (h : targetOf p off = some (.msgWord k)) :
    0x1000 ≤ off ∧ off < 0x1000 + p.msgMaxBytes ∧ k = (off - 0x1000) / 4 := by
  unfold targetOf at h
  split_ifs at h with h1 h2 h3 h4 h5 h6 h7
  all_goals simp only [Option.some.injEq, reduceCtorEq, Target.msgWord.injEq] at h
  exact ⟨by omega, h7, h.symm⟩

/-- R40: the offset of window word k names it. -/
theorem targetOf_window {p : Params} {k : Nat} (h : 4 * k < p.msgMaxBytes) :
    targetOf p (0x1000 + 4 * k) = some (.msgWord k) := by
  unfold targetOf
  rw [if_neg (by omega), if_neg (by omega), if_neg (by omega), if_neg (by omega), dif_neg (by omega),
    if_neg (by omega), if_pos (by omega)]
  congr 2
  omega

/-- R40: the offset of DIGESTi names it. -/
theorem targetOf_digest (p : Params) (i : Fin 8) : targetOf p (0x020 + 4 * i.val) = some (.digest i) := by
  have := i.isLt
  unfold targetOf
  rw [if_neg (by omega), if_neg (by omega), if_neg (by omega), if_neg (by omega), dif_pos (by omega)]
  congr 2
  apply Fin.ext
  show (32 + 4 * i.val - 32) / 4 = i.val
  omega

/-- An aligned offset with a target is accessed at that target. -/
theorem access_of_target {p : Params} {off : Nat} {r : Target} (ha : off % 4 = 0) (h : targetOf p off = some r) :
    access p off = .ok r := by
  simp [access, ha, h]

/-- An offset of the contract (R42) names a target. -/
theorem access_of_contract {p : Params} {off : Nat} (ha : off % 4 = 0) (h : off < 0x1000 + p.msgMaxBytes) :
    ∃ r, access p off = .ok r := by
  have : ∃ r, targetOf p off = some r := by
    unfold targetOf
    split_ifs
    all_goals exact ⟨_, rfl⟩
  obtain ⟨r, hr⟩ := this
  exact ⟨r, access_of_target ha hr⟩

/-- Every other offset is refused. -/
theorem access_error {p : Params} {off : Nat} (h : ¬ (off % 4 = 0 ∧ off < 0x1000 + p.msgMaxBytes)) :
    ∃ e, access p off = .error e := by
  unfold access
  split_ifs with ha
  · have : ¬ off < 0x1000 + p.msgMaxBytes := fun x => h ⟨ha, x⟩
    have : targetOf p off = none := by
      unfold targetOf
      rw [if_neg (by omega), if_neg (by omega), if_neg (by omega), if_neg (by omega), dif_neg (by omega),
        if_neg (by omega), if_neg (by omega)]
    rw [this]
    exact ⟨_, rfl⟩
  · exact ⟨_, rfl⟩

/-! ### What a host access can do to the core -/

/-- What a host write can do to the core. -/
inductive WriteEffect (p : Params) (c : CoreState) : CoreState → Prop where
  | none : WriteEffect p c c
  | cmd {c' : CoreState} (h : CmdEffect p c c') : WriteEffect p c c'
  | msgLen (v : Word) (h : c.phase = .idle) : WriteEffect p c { c with msgLen := v }
  | msgWord (off : Nat) (v : Word) (ha : off % 4 = 0) (h1 : 0x1000 ≤ off) (h2 : off < 0x1000 + p.msgMaxBytes)
      (h : c.phase = .idle) : WriteEffect p c { c with msg := c.msg.writeWord ((off - 0x1000) / 4) v }

/-- A bus write that is not refused changes the host's side and, by one of the effects, the core. -/
theorem busWrite_next {off : Nat} {v : Word} {s s' : State} (h : busWrite off v s = .next s') :
    ∃ c, s' = { s with host := s.host.advance.wrote off v, core := c } ∧ WriteEffect s.params s.core c := by
  unfold busWrite at h
  split at h
  · next r hr =>
    obtain ⟨ha, ht⟩ := access_ok hr
    cases r with
    | cmd =>
      obtain ⟨c, hc, e⟩ := cmdWrite_effect v { s with host := s.host.advance.wrote off v }
      simp only [writeTarget, hc, Host.Outcome.next.injEq] at h
      exact ⟨c, h.symm, .cmd e⟩
    | msgLen =>
      simp only [writeTarget, Host.Outcome.next.injEq] at h
      subst h
      by_cases hp : s.core.phase = .idle
      · exact ⟨_, rfl, by rw [setMsgLen_idle v hp]; exact .msgLen v hp⟩
      · exact ⟨_, rfl, by rw [setMsgLen_locked v hp]; exact .none⟩
    | msgWord k =>
      simp only [writeTarget, Host.Outcome.next.injEq] at h
      subst h
      obtain ⟨h1, h2, rfl⟩ := targetOf_msgWord ht
      by_cases hp : s.core.phase = .idle
      · exact ⟨_, rfl, by rw [setMsgWord_idle _ v hp]; exact .msgWord off v ha h1 h2 hp⟩
      · exact ⟨_, rfl, by rw [setMsgWord_locked _ v hp]; exact .none⟩
    | status => simp only [writeTarget, Host.Outcome.next.injEq] at h; exact ⟨s.core, h.symm, .none⟩
    | caps => simp only [writeTarget, Host.Outcome.next.injEq] at h; exact ⟨s.core, h.symm, .none⟩
    | reserved => simp only [writeTarget, Host.Outcome.next.injEq] at h; exact ⟨s.core, h.symm, .none⟩
    | digest i => simp only [writeTarget, Host.Outcome.next.injEq] at h; exact ⟨s.core, h.symm, .none⟩
  · cases h

/-- A bus read that is not refused touches the host's side and the free-value counter only. -/
theorem busRead_next {off x : Nat} {s s' : State} (h : busRead off x s = .next s') :
    ∃ r, access s.params off = .ok r ∧
      s' = { s with host := s.host.advance.got off x (readValue r s), draws := s.draws + drawsUsed r s } := by
  unfold busRead at h
  split at h
  · next r hr => cases h; exact ⟨r, hr, rfl⟩
  · cases h

/-- A host step that is not refused leaves parameters and schedule alone, and changes the core as a write can. -/
theorem hostOp_next {op : HostOp} {s s' : State} (h : hostOp op s = .next s') :
    WriteEffect s.params s.core s'.core ∧ s'.params = s.params ∧ s'.sched = s.sched := by
  have write : ∀ {off v}, busWrite off v s = .next s' →
      WriteEffect s.params s.core s'.core ∧ s'.params = s.params ∧ s'.sched = s.sched := by
    intro off v h
    obtain ⟨c, rfl, e⟩ := busWrite_next h
    exact ⟨e, rfl, rfl⟩
  have read : ∀ {off x}, busRead off x s = .next s' →
      WriteEffect s.params s.core s'.core ∧ s'.params = s.params ∧ s'.sched = s.sched := by
    intro off x h
    obtain ⟨r, _, rfl⟩ := busRead_next h
    exact ⟨.none, rfl, rfl⟩
  cases op with
  | wr off v => exact write h
  | rd off x => exact read h
  | bnz x m target => cases h; exact ⟨.none, rfl, rfl⟩
  | memWrite addr width v =>
    simp only [hostOp] at h
    split at h
    · exact write h
    · cases h
  | memRead addr width x =>
    simp only [hostOp] at h
    split at h
    · exact read h
    · cases h

/-! ### One step -/

/-- What one step can do to the core. -/
inductive StepEffect (p : Params) (c : CoreState) : Move → CoreState → Prop where
  | host {c' : CoreState} (h : WriteEffect p c c') : StepEffect p c .host c'
  | core {c' : CoreState} (h : coreStep c = .next c') : StepEffect p c .core c'
  | reset : StepEffect p c .reset CoreState.reset

/-- If a step answers a next state: the parameters are unchanged, and the core changed as the agent whose turn it was
can change it. -/
theorem step_effect {s s' : State} (h : step s = .next s') :
    s'.params = s.params ∧ StepEffect s.params s.core (nextMove s) s'.core := by
  unfold step at h
  cases hm : nextMove s with
  | host =>
    simp only [hm, runMove, hostMove] at h
    split at h
    · obtain ⟨e, hp, _⟩ := hostOp_next h
      rw [takeTurn_params] at hp
      rw [takeTurn_params, takeTurn_core] at e
      exact ⟨hp, .host e⟩
    · cases h
      simp only [takeTurn_params, takeTurn_core]
      exact ⟨trivial, .host .none⟩
  | core =>
    simp only [hm, runMove] at h
    obtain ⟨c, hc, rfl⟩ := coreMove_next h
    simp only [takeTurn_params, takeTurn_core] at hc ⊢
    exact ⟨trivial, .core hc⟩
  | reset =>
    simp only [hm, runMove, Host.Outcome.next.injEq] at h
    subst h
    simp only [platformReset_params, takeTurn_params, platformReset_core]
    exact ⟨trivial, .reset⟩

/-- A step that is no reset is the host's or the core's. -/
theorem step_effect_of_ne_reset {s s' : State} (h : step s = .next s') (hn : nextMove s ≠ .reset) :
    (nextMove s = .host ∧ WriteEffect s.params s.core s'.core) ∨
      (nextMove s = .core ∧ coreStep s.core = .next s'.core) := by
  obtain ⟨_, e⟩ := step_effect h
  revert e hn
  generalize nextMove s = m
  generalize s'.core = c
  intro hn e
  cases e with
  | host h => exact .inl ⟨rfl, h⟩
  | core h => exact .inr ⟨rfl, h⟩
  | reset => exact absurd rfl hn

/-- A step takes one turn off a schedule that names an agent. -/
theorem step_sched {s s' : State} {m : Move} {rest : List Move} (hs : s.sched = m :: rest) (h : step s = .next s') :
    s'.sched = rest := by
  rw [step_cons s m rest hs] at h
  cases m with
  | reset => cases h; rfl
  | core =>
    obtain ⟨c, _, rfl⟩ := coreMove_next h
    rfl
  | host =>
    simp only [runMove, hostMove] at h
    split at h
    · exact (hostOp_next h).2.2
    · cases h; rfl

/-! ### Runs -/

/-- A run of n + 1 steps is a step and a run of n. -/
theorem run_succ {s t : State} (n : Nat) (h : step s = .next t) :
    Sys2Proof.core.run (n + 1) s = Sys2Proof.core.run n t := by
  have h' : Sys2Proof.core.step s = .next t := h
  simp only [Host.Core.run, h']

/-- A run of n + 1 steps that answers a next state begins with a step that does. -/
theorem run_succ_next {s u : State} {n : Nat} (h : Sys2Proof.core.run (n + 1) s = .next u) :
    ∃ t, step s = .next t ∧ Sys2Proof.core.run n t = .next u := by
  simp only [Host.Core.run] at h
  split at h
  · next t ht => exact ⟨t, ht, h⟩
  · cases h
  · cases h

/-- What every step keeps, every run keeps. -/
theorem run_induction {P : State → Prop} (keeps : ∀ s t, P s → step s = .next t → P t) :
    ∀ {n : Nat} {s t : State}, P s → Sys2Proof.core.run n s = .next t → P t
  | 0, s, t, hs, h => by cases h; exact hs
  | n + 1, s, t, hs, h => by
    obtain ⟨s', h1, h2⟩ := run_succ_next h
    exact run_induction keeps (keeps s s' hs h1) h2

/-! ### The memory's canonical form -/

/-- A host write keeps the memory's canonical form. -/
theorem WriteEffect.msg_wf {p : Params} {c c' : CoreState} (e : WriteEffect p c c') (h : c.msg.wf) : c'.msg.wf := by
  cases e with
  | none => exact h
  | cmd h' => cases h' <;> exact h
  | msgLen => exact h
  | msgWord => exact Memory.writeWord_wf _ _ h

/-- Every turn keeps the memory's canonical form. -/
theorem StepEffect.msg_wf {p : Params} {m : Move} {c c' : CoreState} (e : StepEffect p c m c') (h : c.msg.wf) :
    c'.msg.wf := by
  cases e with
  | host e => exact e.msg_wf h
  | core hc => rw [(coreStep_frame hc).1]; exact h
  | reset => exact List.Pairwise.nil

/-- Every step keeps the memory's canonical form. -/
theorem step_msg_wf {s s' : State} (h : step s = .next s') (hw : s.core.msg.wf) : s'.core.msg.wf :=
  (step_effect h).2.msg_wf hw

end Sys2Proof.Machine
end

