-- ==== Sys2Proof/Tests/Slice0.lean ====
section
/-! SUPPORT. Small tests, their expected values from the spec (95_test_vectors.md and the rules' own examples), and for
every statement with hypotheses a state that meets them. -/

namespace Sys2Proof.Tests

open Sys2Proof Sys2Proof.Machine

/-! ## Helpers -/

/-- The parameters of the spec's test programs (95_test_vectors.md section 5), with a BASE of our own. -/
def params : Params := { msgMaxBytes := 0x1000, base := 0x4000 }

/-- Just after reset. -/
def start : State := State.resetWith params

/-- Just after reset but for the phase. -/
def inPhase (ph : Phase) : CoreState := { CoreState.reset with phase := ph }

/-- `start` with another core. -/
def withCore (c : CoreState) : State := { start with core := c }

/-- `s` with a host program at its first line and the host's turn. -/
def hostTurn (prog : List HostOp) (s : State) : State :=
  { s with host := { HostAgent.empty with prog := prog }, sched := [.host] }

/-- A property of the next state, false if there is none. -/
def after {σ : Type} (o : Host.Outcome σ Fault Refusal) (p : σ → Bool) : Bool :=
  match o with
  | .next s => p s
  | .fault _ => false
  | .refused _ => false

/-- The bytes of "abc". -/
def abc : List Byte := [0x61#8, 0x62#8, 0x63#8]

/-- The memory after `wr 0x1000, 0x61626300` (V-M14). -/
def abcMem : Memory := [(0, 0x61#8), (1, 0x62#8), (2, 0x63#8), (3, 0x00#8)]

/-- An idle core with "abc" in memory and MSG_LEN = 3. -/
def abcIdle : CoreState := { CoreState.reset with msg := abcMem, msgLen := 3#32 }

/-- The same core after HASH was accepted (R104). -/
def abcAccepted : CoreState := acceptHash abcIdle

/-- The one block of the padded "abc" message. -/
def abcBlock : Block := (blocks (pad abc))[0]'(by decide +kernel)

/-- The core before the last micro-step of the HASH of "abc". -/
def abcLast : CoreState :=
  { abcAccepted with
    W := expand abcBlock
    vars := rounds (expand abcBlock) (initVars Rom.H0) 64
    t := 64
    phase := .accum }

/-! ## Decoding: words written out from R55 and R56 (30_encoding.md) -/

theorem test_decode_nop : decode 0b00000000000000000000000000000000#32 = .command .nop := by decide
theorem test_decode_hash : decode 0b00000000000000000000000000000001#32 = .command .hash := by decide
/-- V-M7 -/
theorem test_decode_reserved_op : decode 0x00000005#32 = .illegal .reservedOp := by decide
/-- V-M8 -/
theorem test_decode_reserved_bits : decode 0x00000011#32 = .illegal .reservedBits := by decide
/-- V-M9 -/
theorem test_decode_top_bit : decode 0x80000000#32 = .illegal .reservedBits := by decide
theorem test_decode_op_f : decode 0x0000000F#32 = .illegal .reservedOp := by decide
theorem test_encode_nop : encode .nop = 0x00000000#32 := by decide
theorem test_encode_hash : encode .hash = 0x00000001#32 := by decide
theorem test_table_nop : decodeTableWord 32 0 = some .nop := by decide
theorem test_table_hash : decodeTableWord 32 1 = some .hash := by decide
theorem test_table_illegal : decodeTableWord 32 0x11 = none := by decide

/-! ## Well-formedness: each check refuses an ill-formed term -/

theorem test_wf_params : Params.wf params := by decide
theorem test_wf_not_multiple : ¬ Params.wf { msgMaxBytes := 6, base := 0 } := by decide
theorem test_wf_too_small : ¬ Params.wf { msgMaxBytes := 0, base := 0 } := by decide
theorem test_wf_too_large : ¬ Params.wf { msgMaxBytes := 2 ^ 32 - 4092, base := 0 } := by decide
theorem test_wf_base : ¬ Params.wf { msgMaxBytes := 4, base := 0x800 } := by decide
theorem test_legalWord : ¬ legalWord 0x00000002#32 := by decide
theorem test_instr_wf : Instr.wellFormed .nop = true ∧ Instr.wellFormed .hash = true := by decide
theorem test_contract_width : ¬ HostOp.inContract params (.memRead 0x4000 2 0) := by decide
theorem test_contract_aligned : ¬ HostOp.inContract params (.wr 0x002 0#32) := by decide
theorem test_contract_window : ¬ HostOp.inContract params (.rd 0x2000 0) := by decide
theorem test_contract_below : ¬ HostOp.inContract params (.memRead 0x3FFC 4 0) := by decide
theorem test_memory_wf : ¬ Memory.wf [(1, 0#8), (1, 1#8)] := by decide

/-! ## Primitives and mixing functions: V-B1, V-B2, V-S1, V-S2 -/

theorem test_rotr : rotr 0x12345678#32 7 = 0xf02468ac#32 := by decide
theorem test_shr : shr 0x12345678#32 3 = 0x02468acf#32 := by decide
theorem test_add_wraps : (0x80000000#32 : Word) + 0x80000000#32 = 0#32 := by decide
theorem test_sigma0 : sigma0 0x61626380#32 = 0x940e90ef#32 ∧ sigma0 0x80000000#32 = 0x11002000#32 := by decide
theorem test_sigma1 : sigma1 0x12345678#32 = 0xa1f78649#32 ∧ sigma1 0x80000000#32 = 0x00205000#32 := by decide
theorem test_bigSigma0 : bigSigma0 0x6a09e667#32 = 0xce20b47e#32 ∧ bigSigma0 1#32 = 0x40080400#32 := by decide
theorem test_bigSigma1 : bigSigma1 0x510e527f#32 = 0x3587272b#32 ∧ bigSigma1 1#32 = 0x04200080#32 := by decide
theorem test_ch : ch 0x510e527f#32 0x9b05688c#32 0x1f83d9ab#32 = 0x1f85c98c#32 := by decide
theorem test_maj : maj 0x6a09e667#32 0xbb67ae85#32 0x3c6ef372#32 = 0x3a6fe667#32 := by decide

/-! ## Padder and splitter: V-P1, V-P2 -/

theorem test_padded_blocks : [0, 55, 56, 64, 119, 120].map paddedBlocks = [1, 1, 2, 2, 2, 3] := by decide
theorem test_pad_abc : (pad abc).take 5 = [0x61#8, 0x62#8, 0x63#8, 0x80#8, 0x00#8] ∧
    (pad abc).drop 62 = [0x00#8, 0x18#8] := by decide
theorem test_pad_empty : pad [] = 0x80#8 :: List.replicate 63 0x00#8 := by decide
theorem test_block_words_abc : blockWords abcBlock =
    0x61626380#32 :: List.replicate 14 0#32 ++ [0x00000018#32] := by decide +kernel
/-- V-P2: the length of 56 bytes does not fit in block 0. -/
theorem test_block_words_56 : (blocks (pad (List.replicate 56 0x61#8))).map blockWords =
    [List.replicate 14 0x61616161#32 ++ [0x80000000#32, 0#32], List.replicate 15 0#32 ++ [0x000001c0#32]] := by
  decide +kernel

/-! ## Expander, compressor, digest: V-E1, V-C1, V-C2, V-C3, V-D2, V-F1 -/

/-- V-E1, last row. -/
theorem test_expand_abc : ((expand abcBlock).toList.drop 56) =
    [0xef57b9cd#32, 0xebe6b238#32, 0x9fe3095e#32, 0x78bc8d4b#32, 0xa43fcf15#32, 0x668b2ff8#32, 0xeeaba2cc#32,
      0x12b1edeb#32] := by decide +kernel
/-- V-C1 -/
theorem test_round0_temps : temp1 Rom.K[0] 0x61626380#32 (initVars Rom.H0) = 0x54da50e8#32 ∧
    temp2 (initVars Rom.H0) = 0x08909ae5#32 := by decide
/-- V-C2, t = 0 -/
theorem test_round0 : roundStep Rom.K[0] 0x61626380#32 (initVars Rom.H0) =
    { a := 0x5d6aebcd#32, b := 0x6a09e667#32, c := 0xbb67ae85#32, d := 0x3c6ef372#32, e := 0xfa2a4622#32,
      f := 0x510e527f#32, g := 0x9b05688c#32, h := 0x1f83d9ab#32 } := by decide
/-- V-C2, t = 63, and the accumulator: the digest of V-K2. -/
theorem test_accumulate : accumulate Rom.H0
    { a := 0x506e3058#32, b := 0xd39a2165#32, c := 0x04d24d6c#32, d := 0xb85e2ce9#32, e := 0x5ef50f24#32,
      f := 0xfb121210#32, g := 0x948d25b6#32, h := 0x961f4894#32 } =
    #v[0xba7816bf#32, 0x8f01cfea#32, 0x414140de#32, 0x5dae2223#32, 0xb00361a3#32, 0x96177a9c#32, 0xb410ff61#32,
      0xf20015ad#32] := by decide
/-- V-C3: an all-zero block from H0; it runs over every entry of K. -/
theorem test_compress_zero_block : compress Rom.H0 (expand (Vector.replicate 64 0#8)) =
    #v[0xda5698be#32, 0x17b9b469#32, 0x62335799#32, 0x779fbeca#32, 0x8ce5d491#32, 0xc0d26243#32, 0xbafef9ea#32,
      0x1837a9d8#32] := by decide +kernel
/-- V-K2 -/
theorem test_sha256_abc : sha256 abc =
    #v[0xba7816bf#32, 0x8f01cfea#32, 0x414140de#32, 0x5dae2223#32, 0xb00361a3#32, 0x96177a9c#32, 0xb410ff61#32,
      0xf20015ad#32] := by decide +kernel
/-- V-D4: two blocks, the second all padding. -/
theorem test_sha256_56 : sha256 (List.replicate 56 0x61#8) =
    #v[0xb35439a4#32, 0xac6f0948#32, 0xb6d6f9e3#32, 0xc6af0f5f#32, 0x590ce20f#32, 0x1bde7090#32, 0xef797068#32,
      0x6ec6738a#32] := by decide +kernel
/-- V-D9, hex and bytes of its first word. -/
theorem test_hex8 : hex8 0x6e340b9c#32 = ['6', 'e', '3', '4', '0', 'b', '9', 'c'] := by decide
theorem test_bytesBe32 : bytesBe32 0x6e340b9c#32 = [0x6e#8, 0x34#8, 0x0b#8, 0x9c#8] := by decide

/-! ## Commands: V-M7 to V-M13, R105 -/

/-- R105's example: STATUS 0x16, then NOP, gives 0x02. -/
theorem test_nop_example :
    statusWord { CoreState.reset with done := true, err := true, errCode := 0x1#4 } = 0x00000016#32 ∧
    after (exec .nop (withCore { CoreState.reset with done := true, err := true, errCode := 0x1#4 }))
      (fun s => statusWord s.core = 0x00000002#32) = true := by decide
theorem test_nop_busy : after (exec .nop (withCore (inPhase .round)))
    (fun s => statusWord s.core = 0x00000025#32) = true := by decide
theorem test_hash_accepted : after (exec .hash (withCore abcIdle))
    (fun s => s.core.phase = .split && s.core.nblk = 1 && s.core.lbits = 24#64 && s.core.H = Rom.H0) = true := by decide
/-- V-M11 -/
theorem test_hash_long : after (exec .hash (withCore { CoreState.reset with msgLen := 0x1001#32 }))
    (fun s => statusWord s.core = 0x00000034#32 && s.core.H = CoreState.reset.H) = true := by decide
/-- V-M12: l = MSG_MAX_BYTES is accepted. -/
theorem test_hash_full : after (exec .hash (withCore { CoreState.reset with msgLen := 0x1000#32 }))
    (fun s => statusWord s.core = 0x00000001#32) = true := by decide
/-- V-M7 -/
theorem test_illegal : after (cmdWrite 0x00000005#32 start) (fun s => statusWord s.core = 0x00000014#32) = true := by
  decide
theorem test_cmd_faulted : cmdWrite 0x00000001#32 (withCore (inPhase .faulted)) = .next (withCore (inPhase .faulted)) := by
  rfl

/-! ## Micro-steps -/

/-- V-P2 through SPLIT: W[0] and W[15] of "abc". -/
theorem test_split : after (coreStep abcAccepted)
    (fun c => c.phase = .expand && c.t = 16 && c.W[0] = 0x61626380#32 && c.W[15] = 0x00000018#32) = true := by
  decide +kernel
/-- V-M16: MsgUninit(0), STATUS keeps reading 1, and the core is stuck. -/
theorem test_split_unwritten :
    after (coreStep { CoreState.reset with phase := .split, latLen := 4#32, msgLen := 4#32 })
      (fun c => c.uninit = some 0 && statusWord c = 0x00000001#32) = true := by decide +kernel
theorem test_stuck : coreStep { inPhase .split with uninit := some 0 } = .fault (.msgUninit 0) := by rfl
/-- R85's example: W[17] of "abc" is sigma1(W[15]). -/
theorem test_expand : after (coreStep
    { inPhase .expand with W := (Vector.replicate 64 0#32).set 15 0x00000018#32, t := 17 })
      (fun c => c.W[17] = 0x000f0000#32 && c.t = 18 && c.phase = .expand) = true := by decide
theorem test_expand_last : after (coreStep { inPhase .expand with t := 63 })
    (fun c => c.phase = .vars && c.t = 64) = true := by decide
theorem test_expand_range : coreStep { inPhase .expand with t := 15 } = .fault (.sequencerRange 15) := by rfl
theorem test_vars : after (coreStep { inPhase .vars with H := Rom.H0, t := 64 })
    (fun c => c.vars = initVars Rom.H0 && c.t = 0 && c.phase = .round) = true := by decide
theorem test_round_last : after (coreStep { inPhase .round with t := 63 })
    (fun c => c.phase = .accum && c.t = 64) = true := by decide
theorem test_accum_next : after (coreStep { inPhase .accum with nblk := 2, j := 0 })
    (fun c => c.phase = .split && c.j = 1 && !c.done) = true := by decide
theorem test_accum_last : after (coreStep { inPhase .accum with nblk := 2, j := 1 })
    (fun c => c.phase = .idle && c.j = 2 && c.done) = true := by decide
/-- R130: STATUS reads 0x000000FC. -/
theorem test_fault_entry : after (coreStep { inPhase .split with j := 1, done := true })
    (fun c => statusWord c = 0x000000FC#32) = true := by decide
theorem test_idle_turn : coreStep CoreState.reset = .next CoreState.reset := by rfl

/-! ## The host bus: V-M1 to V-M6, V-M14, V-M17 -/

/-- What a host read from `start` gives. -/
def reads (off : Nat) : Option Word :=
  match busRead off 7 start with
  | .next s => some (s.host.var 7)
  | .fault _ => none
  | .refused _ => none

theorem test_reads : [0x004, 0x020, 0x00C, 0x000, 0x010, 0x040, 0xFFC].map reads =
    [some 0#32, some 0#32, some 0x00001000#32, some 0#32, some 0#32, some 0#32, some 0#32] := by decide
/-- V-M6 -/
theorem test_write_status : after (busWrite 0x004 0xffffffff#32 start) (fun s => s.core = start.core) = true := by decide
/-- V-M14 -/
theorem test_window_write : after (busWrite 0x1000 0x61626300#32 start) (fun s => s.core.msg = abcMem) = true := by
  decide
theorem test_window_read : after (busRead 0x1000 7 (withCore abcIdle))
    (fun s => s.host.var 7 = 0x61626300#32 && s.draws = 0) = true := by decide
/-- The top word of the memory, and the offset past it. -/
theorem test_window_top : after (busWrite 0x1FFC 1#32 start) (fun s => s.core.msg.read 0xFFF = some 1#8) = true := by
  decide
theorem test_window_past : busWrite 0x2000 1#32 start = .refused (.outsideWindow 0x6000) := by rfl
/-- V-M15: dropped while busy. -/
theorem test_window_busy : after (busWrite 0x1000 0x78797a00#32 (withCore abcAccepted))
    (fun s => s.core.msg = abcMem) = true := by decide
/-- V-M17 -/
theorem test_misaligned : hostOp (.wr 0x002 0#32) start = .refused (.misaligned 2) := by rfl
theorem test_two_bytes : hostOp (.memRead 0x4004 2 0) start = .refused (.accessWidth 2) := by rfl

/-! ## The host's program, and whole steps -/

/-- A poll of a busy core goes round. -/
theorem test_bnz : after (hostOp (.bnz 0 0x1#32 5) { start with host := { HostAgent.empty with vars := [(0, 1#32)] } })
    (fun s => s.host.pc = 5) = true := by decide
/-- R65's `wait`, and a label (R64). -/
theorem test_assemble : assemble [.nop, .label 9, .rd 0x004 1, .bnz 1 0x1#32 9, .wait 2, .hash] =
    some [.wr 0x000 0#32, .rd 0x004 1, .bnz 1 0x1#32 1, .rd 0x004 2, .bnz 2 0x1#32 3, .wr 0x000 1#32] := by decide
/-- R65's `load` of "abc" (program 1). -/
theorem test_assemble_load : assemble [.load abc] = some [.wr 0x1000 0x61626300#32, .wr 0x008 3#32] := by decide
/-- R144: the poll of step 1 goes round while BUSY or FAULT is 1, and CAPS is read before anything is written. -/
theorem test_host_sequence : ((assemble (hashLines abc)).map fun ops => ops.take 3) =
    some [.rd 0x004 0, .bnz 0 0x9#32 0, .rd 0x00C 10] := by decide
/-- The comparison of step 3 on two bits, for l = 2: bit 1 clear gives up, 3 is larger, 2 falls through. -/
theorem test_fits_lines : fitsLines 2 10 1 3 5 2 =
    [.bnz 10 0x2#32 6, .bnz 10 0xffffffff#32 3, .label 6, .bnz 10 0x1#32 1] := by decide
theorem test_assemble_no_label : assemble [.bnz 0 1#32 3] = none := by decide
/-- A placed command is what the next step runs, whatever the platform's parameters. -/
theorem test_placed_hash : after (step (State.reset.withFetchWord 32 1)) (fun s => s.core.phase = .split) = true := by
  decide
theorem test_placed_nop : after (step (State.reset.withFetchWord 32 0)) (fun s => s.core.phase = .idle) = true := by
  decide
theorem test_reset_turn : after (step { withCore abcLast with sched := [.reset] })
    (fun s => s.core = CoreState.reset) = true := by decide +kernel
/-- The last micro-step of the HASH of "abc": H is V-K2's digest, BUSY is 0, DONE is 1. -/
theorem test_last_step : after (step { withCore abcLast with sched := [.core] })
    (fun s => s.core.H[0] = 0xba7816bf#32 && s.core.H[7] = 0xf20015ad#32 && statusWord s.core = 0x00000002#32) = true := by
  decide +kernel

/-! ## Witnesses: for each statement with hypotheses, a state that meets them (each clause, at a boundary) -/

/-- A busy core that meets the invariant: "abc" accepted. -/
theorem abcAccepted_inv : abcAccepted.Inv params where
  memoryCanonical := by decide
  memoryInside := by
    intro i hi
    have : 0x1000 ≤ i := hi
    show cellGet abcMem i = none
    simp only [abcMem, cellGet]
    rw [if_neg (by omega), if_neg (by omega), if_neg (by omega), if_neg (by omega)]
  blockCount := rfl
  bitCount := rfl
  blockIndex := by decide
  busyIndex := by decide
  busyLength := by decide
  busyNotDone := by decide
  counter := by decide
  expandRange := by decide
  roundRange := by decide
  notFaulted := by decide
  noFaultCode := rfl
  errorClear := by decide
  errorCodes := by decide
  recordedCell := by intro i h; cases h

theorem reset_inv : CoreState.reset.Inv params where
  memoryCanonical := by decide
  memoryInside := fun _ _ => rfl
  blockCount := rfl
  bitCount := rfl
  blockIndex := by decide
  busyIndex := by decide
  busyLength := by decide
  busyNotDone := by decide
  counter := by decide
  expandRange := by decide
  roundRange := by decide
  notFaulted := by decide
  noFaultCode := rfl
  errorClear := by decide
  errorCodes := by decide
  recordedCell := by intro i h; cases h

theorem abc_holds : abcMem.holds abc := by decide

theorem abcBlock_is : (blocks (pad abc))[0]? = some abcBlock := List.getElem?_eq_getElem _

/-- A HASH in progress, just accepted. -/
theorem abcAccepted_inProgress : HashInProgress abc abcAccepted where
  cells := abc_holds
  length := rfl
  bits := rfl
  count := rfl
  noRecord := rfl
  hashState := rfl
  block := ⟨abcBlock, abcBlock_is, trivial⟩

/-- A HASH in progress, one micro-step before its completion. -/
theorem abcLast_inProgress : HashInProgress abc abcLast where
  cells := abc_holds
  length := rfl
  bits := rfl
  count := rfl
  noRecord := rfl
  hashState := rfl
  block := ⟨abcBlock, abcBlock_is, rfl, rfl⟩

theorem witness_StepRunsTheWrittenCommand :
    nextMove (hostTurn [.wr 0x000 1#32] start) = .host ∧ nextMove (hostTurn [.memWrite 0x4000 4 0#32] start) = .host ∧
    (hostTurn [.wr 0x000 1#32] start).host.prog[0]? = some (.wr 0x000 1#32) ∧ decode 1#32 = .command .hash ∧
    (hostTurn [.memWrite 0x4000 4 0#32] start).host.prog[0]? = some (.memWrite params.base 4 0#32) ∧
    decode 0#32 = .command .nop := by decide

/-- The dispatch, NOP, HASH and the busy rejections: each phase, and a length at and above MSG_MAX_BYTES. -/
theorem witness_phases_and_lengths :
    (withCore (inPhase .faulted)).core.phase = .faulted ∧ (withCore (inPhase .accum)).core.phase.busy = true ∧
    start.core.phase = .idle ∧
    (withCore { CoreState.reset with msgLen := 0x1000#32 }).core.msgLen.toNat ≤ params.msgMaxBytes ∧
    params.msgMaxBytes < (withCore { CoreState.reset with msgLen := 0x1001#32 }).core.msgLen.toNat := by decide

theorem witness_BusyCommandsAreRejected :
    (withCore abcAccepted).core.phase.busy = true ∧ ∃ c, coreStep (withCore abcAccepted).core = .next c :=
  ⟨rfl, _, rfl⟩

theorem witness_RejectionsArePrecise :
    start.core.phase ≠ .faulted ∧ ∃ t, cmdWrite 5#32 start = .next t ∧ t.core.err = true :=
  ⟨by decide, _, rfl, rfl⟩

theorem witness_SplitLoadsTheBlock :
    (abcAccepted.uninit = none ∧ abcAccepted.phase = .split ∧ abcAccepted.j < abcAccepted.nblk ∧
      ∀ i, i < 64 → i < abcAccepted.latLen.toNat → (abcAccepted.msg.read i).isSome) ∧
    (¬ (inPhase .split).nblk < (inPhase .split).nblk) ∧
    ({ inPhase .split with latLen := 4#32 } : CoreState).msg.read 0 = none := by decide

theorem witness_PadByteIsThePaddedMessage :
    abcAccepted.msg.holds abc ∧ abcAccepted.latLen.toNat = abc.length ∧
    abcAccepted.lbits = BitVec.ofNat 64 (8 * abc.length) ∧
    [2, 3, 4, 55, 56, 63].all (fun i => i < paddedLen abc.length) = true := by decide

theorem witness_micro_steps :
    (inPhase .expand).uninit = none ∧ ({ inPhase .expand with t := 16 } : CoreState).phase = .expand ∧
    16 ≤ ({ inPhase .expand with t := 63 } : CoreState).t ∧ ({ inPhase .expand with t := 63 } : CoreState).t < 64 ∧
    (inPhase .vars).phase = .vars ∧ ({ inPhase .round with t := 63 } : CoreState).t < 64 ∧
    (inPhase .accum).phase = .accum ∧ ¬ (inPhase .accum).j + 1 < (inPhase .accum).nblk ∧
    (inPhase .accum).j + 1 < ({ inPhase .accum with nblk := 2 } : CoreState).nblk := by decide

theorem witness_CoreStepsExactlyWhenBusy :
    CoreState.reset.Inv params ∧ CoreState.reset.uninit = none ∧ CoreState.reset.phase.busy = false ∧
    abcAccepted.Inv params ∧ abcAccepted.uninit = none ∧ abcAccepted.phase.busy = true :=
  ⟨reset_inv, rfl, rfl, abcAccepted_inv, rfl, rfl⟩

theorem witness_UnwrittenByteStopsTheCore :
    ∃ c', coreStep { inPhase .split with latLen := 1#32 } = .next c' ∧ c'.uninit = some 0 := ⟨_, rfl, by decide⟩

theorem witness_FaultEntryShowsInternal :
    (inPhase .split).uninit = none ∧ ¬ ({ inPhase .split with j := 1 } : CoreState).j < (inPhase .split).nblk ∧
    ∃ c', coreStep { inPhase .split with j := 1 } = .next c' ∧ (inPhase .split).phase ≠ .faulted ∧
      c'.phase = .faulted := ⟨rfl, by decide, _, rfl, by decide, by decide⟩

theorem witness_SplitterCoversTheMessage : split (pad []) = some (blocks (pad [])) ∧
    0 < (blocks (pad [])).length ∧ split [] = none ∧ split [0#8] = none := by decide +kernel

theorem witness_DigestFoldsOverTheBlocks : (blocks (pad abc))[0]? = some abcBlock := abcBlock_is

theorem witness_WindowWriteStoresFourBytes :
    4 * 0x3FF < start.params.msgMaxBytes ∧ start.core.phase.busy = false ∧ start.core.phase ≠ .faulted := by decide

theorem witness_WindowReadReturnsTheCells :
    4 * 0 < (withCore abcIdle).params.msgMaxBytes ∧ (withCore abcIdle).core.msg.read (4 * 0 + 3) = some 0#8 := by decide

theorem witness_ReservedAndReadOnlyOffsets :
    [0x010, 0x01C, 0x040, 0xFFC].all (fun off => off % 4 = 0 &&
      (0x010 ≤ off && off ≤ 0x01C || 0x040 ≤ off && off ≤ 0xFFC)) = true ∧
    [0x020, 0x03C].all (fun off => off % 4 = 0 && 0x020 ≤ off && off ≤ 0x03C) = true := by decide

theorem witness_AccessesOutsideTheContractAreRefused :
    HostOp.inContract start.params (.wr 0x1FFC 0#32) ∧ ¬ HostOp.inContract start.params (.wr 0x2000 0#32) ∧
    HostOp.inContract start.params (.memRead 0x4000 4 0) ∧ ¬ HostOp.inContract start.params (.memRead 0x4000 8 0) := by
  decide

theorem witness_PollLoopsWhileBusy :
    ∃ s : State, s.sched = .host :: .host :: [.core] ∧ s.host.prog[s.host.pc]? = some (.rd 0x004 5) ∧
      s.host.prog[s.host.pc + 1]? = some (.bnz 5 0x1#32 s.host.pc) :=
  ⟨{ hostTurn [.rd 0x004 5, .bnz 5 0x1#32 0] start with sched := [.host, .host, .core] }, rfl, rfl, rfl⟩

theorem witness_LabelsArePositions :
    ∃ ops, assemble ([.wait 0] ++ .label 3 :: [.bnz 0 1#32 3]) = some ops ∧
      ∀ ln ∈ [Line.wait 0], ln ≠ .label 3 := ⟨_, rfl, by decide⟩

theorem witness_PlatformResetAtAnyTime : nextMove { withCore abcAccepted with sched := [.reset] } = .reset := rfl

theorem witness_OnlyResetLeavesFault :
    ∃ t, step (hostTurn [.wr 0x000 1#32] (withCore (inPhase .faulted))) = .next t ∧
      nextMove (hostTurn [.wr 0x000 1#32] (withCore (inPhase .faulted))) ≠ .reset ∧
      (inPhase .faulted).phase = .faulted := ⟨_, rfl, by decide, rfl⟩

theorem witness_MessageIsStableWhileBusy :
    ∃ t, step (hostTurn [.wr 0x1000 1#32] (withCore abcAccepted)) = .next t ∧
      nextMove (hostTurn [.wr 0x1000 1#32] (withCore abcAccepted)) ≠ .reset ∧
      abcAccepted.phase.busy = true := ⟨_, rfl, by decide, rfl⟩

theorem witness_DigestPersists :
    ∃ t, step (hostTurn [.wr 0x008 1#32] start) = .next t ∧ nextMove (hostTurn [.wr 0x008 1#32] start) ≠ .reset ∧
      start.core.phase = .idle := ⟨_, rfl, by decide, rfl⟩

theorem witness_ErrorIsSticky :
    (∃ t, step (hostTurn [.wr 0x000 0#32] (withCore { CoreState.reset with err := true, errCode := 1#4 })) = .next t ∧
      nextMove (hostTurn [.wr 0x000 0#32] (withCore CoreState.reset)) ≠ .reset ∧ t.core.err = false ∧
      t.core.errCode = 0x0#4) ∧
    (withCore abcIdle).core.phase = .idle ∧ (withCore abcIdle).core.msgLen.toNat ≤ (withCore abcIdle).params.msgMaxBytes :=
  ⟨⟨_, rfl, by decide, rfl, rfl⟩, rfl, by decide⟩

/-- R105's example: STATUS reads 0x00000016. -/
theorem witness_NopClearsTheError :
    statusWord { CoreState.reset with err := true, errCode := 1#4, done := true } = 0x00000016#32 := by decide

/-- For DoneIsNeverStale and StepKeepsTheInvariant. -/
theorem witness_busy_step :
    ∃ s t : State, s.Inv ∧ step s = .next t ∧ nextMove s ≠ .reset ∧ s.core.phase.busy = true :=
  ⟨{ withCore abcAccepted with sched := [.core] }, _, ⟨by decide, abcAccepted_inv⟩, rfl, by decide, rfl⟩

theorem witness_FaultIsUnreachable :
    params.wf ∧ ∃ t, Sys2Proof.core.run 1 { State.resetWith params with
      host := { HostAgent.empty with prog := [.wr 0x000 1#32] }, sched := [.host] } = .next t :=
  ⟨by decide, _, rfl⟩

/-- For AcceptanceStartsTheHash, HashRunsToItsDigest, DigestDependsOnTheMessageAlone. -/
theorem witness_idle_with_message :
    (withCore abcIdle).core.phase = .idle ∧ (withCore abcIdle).core.uninit = none ∧
    (withCore abcIdle).core.msgLen.toNat = abc.length ∧ abc.length ≤ (withCore abcIdle).params.msgMaxBytes ∧
    (withCore abcIdle).core.msg.holds abc ∧
    ∀ i, i < (withCore abcIdle).core.msgLen.toNat → ((withCore abcIdle).core.msg.read i).isSome := by decide

theorem witness_HashProgressIsKept :
    HashInProgress abc (hostTurn [.wr 0x000 1#32] (withCore abcAccepted)).core ∧
    ∃ t, step (hostTurn [.wr 0x000 1#32] (withCore abcAccepted)) = .next t :=
  ⟨abcAccepted_inProgress, _, rfl⟩

theorem witness_EveryMicroStepMakesProgress :
    HashInProgress abc (withCore abcLast).core ∧ nextMove { withCore abcLast with sched := [.core] } = .core :=
  ⟨abcLast_inProgress, rfl⟩

/-- The interleaving of the witness: a host turn, then the micro-steps of the one block. -/
def interleaving : List Move := .host :: List.replicate 115 .core

/-- Every one of the next `n` steps is one of a busy core, and the core is idle after them. -/
def firstIdleAfter : Nat → State → Bool
  | 0, s => s.core.phase = .idle
  | n + 1, s => s.core.phase.busy && after (step s) (firstIdleAfter n)

theorem of_firstIdleAfter : ∀ {n : Nat} {s : State}, firstIdleAfter n s = true →
    (∃ u, Sys2Proof.core.run n s = .next u ∧ u.core.phase = .idle) ∧
      ∀ k v, k < n → Sys2Proof.core.run k s = .next v → v.core.phase.busy = true
  | 0, s, h => ⟨⟨s, rfl, by simpa [firstIdleAfter] using h⟩, fun k v hk _ => absurd hk (Nat.not_lt_zero k)⟩
  | n + 1, s, h => by
    simp only [firstIdleAfter, Bool.and_eq_true] at h
    obtain ⟨hb, ha⟩ := h
    cases hs : step s with
    | fault r => rw [hs] at ha; cases ha
    | refused r => rw [hs] at ha; cases ha
    | next t =>
      rw [hs] at ha
      obtain ⟨⟨u, hu, hi⟩, hall⟩ := of_firstIdleAfter (s := t) ha
      refine ⟨⟨u, by rw [run_succ n hs]; exact hu, hi⟩, fun k v hk hv => ?_⟩
      cases k with
      | zero => cases hv; exact hb
      | succ k => rw [run_succ k hs] at hv; exact hall k v (by omega) hv

theorem witness_EveryInterleavingGivesTheDigest :
    exec .hash (withCore abcIdle) = .next (withCore abcAccepted) ∧ (∀ mv ∈ interleaving, mv ≠ .reset) ∧
    (∃ u, Sys2Proof.core.run interleaving.length { withCore abcAccepted with sched := interleaving } = .next u ∧
      u.core.phase = .idle) ∧
    ∀ k v, k < interleaving.length →
      Sys2Proof.core.run k { withCore abcAccepted with sched := interleaving } = .next v → v.core.phase.busy = true :=
  ⟨rfl, by decide +kernel, of_firstIdleAfter (by decide +kernel)⟩

/-- The core and the host in turn, for ever. -/
def alternating (k : Nat) : Move := if k % 2 = 0 then .core else .host

theorem witness_HashTerminatesUnderWeakFairness :
    exec .hash (withCore abcIdle) = .next (withCore abcAccepted) ∧
    (∀ op ∈ (withCore abcIdle).host.prog, op.inContract (withCore abcIdle).params) ∧
    (∀ k, alternating k ≠ .reset) ∧ WeaklyFair alternating (withCore abcAccepted) :=
  ⟨rfl, (fun op h => by cases h), (fun k => by unfold alternating; split <;> decide),
    fun n _ => ⟨2 * n, by omega, by simp [alternating]⟩⟩

/-- The three clauses, the exception of DIGESTi among them. -/
theorem witness_ReadsHaveNoEffect :
    0x1FFC % 4 = 0 ∧ 0x1FFC < 0x1000 + start.params.msgMaxBytes ∧
    ¬ (0x020 ≤ 0x1FFC ∧ 0x1FFC < 0x040 ∧ start.core.phase ≠ .idle) ∧
    ¬ (0x020 ≤ 0x020 ∧ 0x020 < 0x040 ∧ start.core.phase ≠ .idle) ∧ start.core.phase = .idle ∧
    (0x1000 ≤ 0x1FFC ∧ 0xFFB < 0x1FFC - 0x1000) ∧ (0x008 % 4 = 0 ∧ 0x008 < 0x1000 + start.params.msgMaxBytes) ∧
    start.core.msgLen.toNat ≤ start.params.msgMaxBytes := by decide

theorem witness_EmptyMessageDigest :
    start.core.phase = .idle ∧ start.core.uninit = none ∧ start.core.msgLen = 0#32 := by decide

end Sys2Proof.Tests
end

/-! # Proofs: byte order -/

namespace Sys2Proof.Machine

/-- Appending a byte below a bit vector multiplies its value by 256 and adds the byte's. -/
theorem toNat_append_byte {n : Nat} (x : BitVec n) (b : Byte) : (x ++ b).toNat = x.toNat * 256 + b.toNat := by
  rw [BitVec.toNat_append, ← Nat.shiftLeft_add_eq_or_of_lt b.isLt, Nat.shiftLeft_eq]

/-- R9 (00_scope.md), R46 (20_memory.md): the first byte of `be32` is the most significant. -/
theorem toNat_be32 (b0 b1 b2 b3 : Byte) :
    (be32 b0 b1 b2 b3).toNat = b0.toNat * 2 ^ 24 + b1.toNat * 2 ^ 16 + b2.toNat * 2 ^ 8 + b3.toNat := by
  simp only [be32, toNat_append_byte]
  omega

theorem bytesBe32_be32 (b0 b1 b2 b3 : Byte) : bytesBe32 (be32 b0 b1 b2 b3) = [b0, b1, b2, b3] := by
  obtain ⟨h0, h1, h2, h3⟩ := byteBe32_be32 b0 b1 b2 b3
  rw [bytesBe32, h0, h1, h2, h3]

/-- The value a byte sequence spells, most significant byte first. -/
def bigEndianValue (bs : List Byte) : Nat := bs.foldl (fun n b => n * 256 + b.toNat) 0

theorem bigEndianValue_append_singleton (bs : List Byte) (b : Byte) :
    bigEndianValue (bs ++ [b]) = bigEndianValue bs * 256 + b.toNat := by
  simp [bigEndianValue]

theorem toNat_byteBe64 (v : BitVec 64) (k : Nat) : (byteBe64 v k).toNat = v.toNat / 2 ^ (56 - 8 * k) % 256 := by
  simp [byteBe64, BitVec.extractLsb'_toNat, Nat.shiftRight_eq_div_pow]

/-- The first k bytes of a 64-bit value spell its top 8k bits. -/
theorem bigEndianValue_first_bytesBe64 (v : BitVec 64) (k : Nat) (hk : k ≤ 8) :
    bigEndianValue ((List.range k).map (byteBe64 v)) = v.toNat / 2 ^ (64 - 8 * k) := by
  induction k with
  | zero => simp [bigEndianValue, Nat.div_eq_of_lt v.isLt]
  | succ k ih =>
    have split_pow : 2 ^ (64 - 8 * k) = 2 ^ (56 - 8 * k) * 256 := by
      rw [show 64 - 8 * k = 56 - 8 * k + 8 by omega, Nat.pow_add]
    rw [List.range_succ, List.map_append, List.map_singleton, bigEndianValue_append_singleton, ih (by omega),
      toNat_byteBe64, split_pow, ← Nat.div_div_eq_div_mul, show 64 - 8 * (k + 1) = 56 - 8 * k by omega,
      Nat.div_add_mod']

/-- The eight bytes of a 64-bit value spell it (R9, 00_scope.md). -/
theorem bigEndianValue_bytesBe64 (v : BitVec 64) : bigEndianValue (bytesBe64 v) = v.toNat := by
  simpa [bytesBe64] using bigEndianValue_first_bytesBe64 v 8 (Nat.le_refl 8)

/-- Settles O22: be32 appends its bytes, and the first k of the eight bytes spell the top 8k bits, by induction on k. -/
theorem byteOrderIsBigEndian : Obligations.ByteOrderIsBigEndian :=
  ⟨fun b0 b1 b2 b3 => ⟨toNat_be32 b0 b1 b2 b3, bytesBe32_be32 b0 b1 b2 b3⟩,
    fun v => ⟨length_bytesBe64 v, bigEndianValue_bytesBe64 v⟩⟩

/-! # Proofs: the frame of the two commands -/

/-- R104 (43_driver_commands.md): HASH at an idle core with a length that fits is the acceptance. -/
theorem exec_hash_accepted {s : State} (hp : s.core.phase = .idle)
    (hl : s.core.msgLen.toNat ≤ s.params.msgMaxBytes) :
    exec .hash s = .next { s with core := acceptHash s.core } := by
  rw [exec, execHash, commandGate_idle _ hp, hashWhenIdle_fits hl]

/-- A gated command that changes ERR and ERRCODE only at an idle core changes nothing else at any core. -/
theorem commandGate_changes_error_only {f : CoreState → CoreState} {c : CoreState}
    (hf : c.phase = .idle → ∃ e k, f c = { c with err := e, errCode := k }) :
    ∃ e k, commandGate f c = { c with err := e, errCode := k } := by
  rcases commandGate_cases f c with ⟨_, h⟩ | ⟨_, h⟩ | ⟨hp, h⟩ <;> rw [h]
  · exact ⟨c.err, c.errCode, rfl⟩
  · exact ⟨true, ErrCode.cmdWhileBusy, rfl⟩
  · exact hf hp

/-- What a command can do: it changes ERR and ERRCODE only, or it is a HASH that is accepted. -/
theorem exec_cases (i : Instr) (s : State) :
    (∃ e k, exec i s = .next { s with core := { s.core with err := e, errCode := k } }) ∨
    (i = .hash ∧ s.core.phase = .idle ∧ s.core.msgLen.toNat ≤ s.params.msgMaxBytes ∧
      exec i s = .next { s with core := acceptHash s.core }) := by
  cases i with
  | nop =>
    obtain ⟨e, k, h⟩ := commandGate_changes_error_only (f := clearError) (c := s.core)
      fun _ => ⟨false, ErrCode.noError, rfl⟩
    exact .inl ⟨e, k, by rw [exec, execNop, h]⟩
  | hash =>
    by_cases ha : s.core.phase = .idle ∧ s.core.msgLen.toNat ≤ s.params.msgMaxBytes
    · exact .inr ⟨rfl, ha.1, ha.2, exec_hash_accepted ha.1 ha.2⟩
    · obtain ⟨e, k, h⟩ := commandGate_changes_error_only (f := hashWhenIdle s.params) (c := s.core)
        fun hp => ⟨true, ErrCode.lenRange, hashWhenIdle_long (Nat.lt_of_not_le fun hl => ha ⟨hp, hl⟩)⟩
      exact .inl ⟨e, k, by rw [exec, execHash, h]⟩

/-- Settles O10: a command changes ERR and ERRCODE only, unless it is an accepted HASH, whose latches, H, j, DONE and
phase the last clause excepts. -/
theorem commandsKeepTheRest : Obligations.CommandsKeepTheRest := by
  intro i s
  rcases exec_cases i s with ⟨e, k, h⟩ | ⟨rfl, hp, hl, h⟩
  · exact ⟨_, h, by simp⟩
  · refine ⟨_, h, rfl, rfl, rfl, rfl, rfl, fun _ => rfl, rfl, rfl, rfl, rfl, rfl, rfl, ?_⟩
    rintro (hn | hn | hn)
    · cases hn
    · exact absurd hp hn
    · exact absurd hl (Nat.not_le.mpr hn)

/-! # Proofs: the functional layer, as the micro-steps reach it -/

/-- R69 (40_padder_splitter.md): byte i of the padded message, by the four ranges of the rule. -/
theorem getElem?_pad (m : List Byte) (i : Nat) (hi : i < paddedLen m.length) :
    (pad m)[i]? =
      if i < m.length then m[i]?
      else if i = m.length then some 0x80#8
      else if i < paddedLen m.length - 8 then some 0x00#8
      else some (byteBe64 (bitLength m.length) (i - (paddedLen m.length - 8))) := by
  have room := add_nine_le_paddedLen m.length
  have hmark : (m ++ [0x80#8]).length = m.length + 1 := by simp
  have hzero : (m ++ [0x80#8] ++ List.replicate (paddedLen m.length - m.length - 9) 0x00#8).length =
      paddedLen m.length - 8 := by simp; omega
  unfold pad
  split_ifs with h1 h2 h3
  · rw [List.getElem?_append_left (by omega), List.getElem?_append_left (by omega), List.getElem?_append_left h1]
  · subst h2
    rw [List.getElem?_append_left (by omega), List.getElem?_append_left (by omega), List.getElem?_concat_length]
  · rw [List.getElem?_append_left (by omega), List.getElem?_append_right (by omega), hmark,
      List.getElem?_replicate_of_lt (by omega)]
  · rw [List.getElem?_append_right (by omega), hzero, bytesBe64, List.getElem?_map, List.getElem?_range (by omega),
      Option.map_some]

/-- R79 (40_padder_splitter.md): `PadByte(i)` of a memory that holds `m` is byte i of the padded message. -/
theorem padByte_eq_pad {c : CoreState} {m : List Byte} (hm : c.msg.holds m) (hl : c.latLen.toNat = m.length)
    (hb : c.lbits = bitLength m.length) {i : Nat} (hi : i < paddedLen m.length) :
    padByte c i = .ok ((pad m).getD i 0#8) := by
  rw [List.getD_eq_getElem?_getD, getElem?_pad m i hi]
  simp only [padByte, hl, hb, if_pos hi]
  split_ifs with h1
  · rw [msgByte_ok ((hm i h1).trans (List.getElem?_eq_getElem h1)), List.getElem?_eq_getElem h1, Option.getD_some]
  all_goals rfl

/-- SPLIT's operands are the words of the message's block j (R75, R76 of 40_padder_splitter.md). -/
theorem splitWords_of_holds {c : CoreState} {m : List Byte} {b : Block} (hm : c.msg.holds m)
    (hl : c.latLen.toNat = m.length) (hb : c.lbits = bitLength m.length) (hj : (blocks (pad m))[c.j]? = some b) :
    splitWords c = .ok (blockWords b) := by
  have hlt : c.j < paddedBlocks m.length := length_blocks_pad m ▸ (List.getElem?_eq_some_iff.mp hj).1
  have hlen : paddedLen m.length = 64 * paddedBlocks m.length := rfl
  rw [getElem?_blocks _ _ (by rw [length_pad]; omega), Option.some.injEq] at hj
  have words := blockWords_of_bytes (fun k => (pad m).getD (64 * c.j + k) 0#8) b fun k hk => by
    simp [← hj]
  rw [splitWords_ok fun k hk => padByte_eq_pad hm hl hb (by omega), words]

/-- R84 (41_schedule.md): a block's words loaded over any schedule are entries 0 to 15 of the block's schedule. -/
theorem getElem_loadWords_eq_expand (b : Block) (W : Vector Word 64) {i : Nat} (h : i < 64) (hi : i < 16) :
    (loadWords (blockWords b) W)[i] = (expand b)[i] := by
  have hlen : i < (blockWords b).length := by rwa [length_blockWords]
  rw [getElem_expand b i h 0 (by omega) (by omega), scheduleSteps, getElem_loadWords _ _ _ h, getElem_loadWords _ _ _ h,
    if_pos hi, if_pos hi, List.getD_eq_getElem _ _ hlen, List.getD_eq_getElem _ _ hlen]

/-- R85 (41_schedule.md): a block's schedule satisfies the recurrence. -/
theorem getElem_expand_recurrence (b : Block) (t : Nat) (h16 : 16 ≤ t) (h : t < 64) :
    (expand b)[t] = scheduleWord (expand b) t h16 h := by
  obtain ⟨n, rfl⟩ := Nat.exists_eq_add_of_le h16
  rw [getElem_expand b (16 + n) h (n + 1) (by omega) (by omega), scheduleSteps,
    getElem_scheduleStep _ _ _ h ⟨h16, h⟩, if_pos rfl]
  exact scheduleWord_congr h16 h fun i hi ht => (getElem_expand b i hi n ht (by omega)).symm

/-- A step of the expansion extends the part of a schedule that is the block's by one entry. -/
theorem scheduleStep_agrees {b : Block} {W : Vector Word 64} {t : Nat} (ht : 16 ≤ t ∧ t < 64)
    (same : ∀ i (_ : i < 64), i < t → W[i] = (expand b)[i]) :
    ∀ i (_ : i < 64), i < t + 1 → (scheduleStep W t)[i] = (expand b)[i] := by
  intro i hi hlt
  rw [getElem_scheduleStep _ _ _ hi ht]
  split_ifs with h
  · subst h
    rw [getElem_expand_recurrence b i ht.1 ht.2, scheduleWord_congr ht.1 ht.2 same]
  · exact same i hi (by omega)

/-- R100 (42_compression.md): S_(j+1) is the compression of block j from S_j. -/
theorem stateAfter_succ {m : List Byte} {j : Nat} {b : Block} (h : (blocks (pad m))[j]? = some b) :
    stateAfter m (j + 1) = compress (stateAfter m j) (expand b) := by
  rw [stateAfter, List.take_add_one, h, foldBlocks_append]
  rfl

/-- R100 (42_compression.md): S_N is the digest. -/
theorem stateAfter_all (m : List Byte) : stateAfter m (paddedBlocks m.length) = sha256 m := by
  rw [stateAfter, ← length_blocks_pad, List.take_length, sha256]

/-! # Proofs: a HASH in progress runs to its digest -/

theorem remaining_split {c : CoreState} (h : c.phase = .split) : remaining c = 115 * (c.nblk - c.j) := by
  simp [remaining, h]
theorem remaining_expand {c : CoreState} (h : c.phase = .expand) :
    remaining c = 115 * (c.nblk - c.j) - 1 - (c.t - 16) := by
  simp [remaining, h]
theorem remaining_vars {c : CoreState} (h : c.phase = .vars) : remaining c = 115 * (c.nblk - c.j) - 49 := by
  simp [remaining, h]
theorem remaining_round {c : CoreState} (h : c.phase = .round) :
    remaining c = 115 * (c.nblk - c.j) - 50 - c.t := by
  simp [remaining, h]
theorem remaining_accum {c : CoreState} (h : c.phase = .accum) : remaining c = 115 * (c.nblk - c.j) - 114 := by
  simp [remaining, h]

/-- In a HASH in progress a block is left. -/
theorem HashInProgress.index_lt {m : List Byte} {c : CoreState} (h : HashInProgress m c) : c.j < c.nblk := by
  obtain ⟨b, hb, _⟩ := h.block
  rw [h.count, ← length_blocks_pad]
  exact (List.getElem?_eq_some_iff.mp hb).1

/-- R104 (43_driver_commands.md): an accepted HASH of the message in memory is in progress, at its first block. -/
theorem acceptHash_inProgress {m : List Byte} {c : CoreState} (hu : c.uninit = none)
    (hl : c.msgLen.toNat = m.length) (hm : c.msg.holds m) : HashInProgress m (acceptHash c) where
  cells := hm
  length := hl
  bits := by rw [acceptHash_lbits, hl]
  count := by rw [acceptHash_nblk, hl]
  noRecord := hu
  hashState := rfl
  block := by
    have hpos : 0 < (blocks (pad m)).length := by rw [length_blocks_pad]; exact Nat.succ_pos _
    exact ⟨_, List.getElem?_eq_getElem hpos, trivial⟩

/-- R113 (43_driver_commands.md): an accepted HASH has all the micro-steps of its blocks to go. -/
theorem remaining_acceptHash (c : CoreState) : remaining (acceptHash c) = 115 * paddedBlocks c.msgLen.toNat := by
  rw [remaining_split (acceptHash_phase c), acceptHash_nblk, acceptHash_j, Nat.sub_zero]

/-- What the core's turn answers while `m` is being hashed: the HASH one micro-step further on, or complete. -/
inductive HashAdvance (m : List Byte) (c c' : CoreState) : Prop where
  | further (p : HashInProgress m c') (r : remaining c' + 1 = remaining c) : HashAdvance m c c'
  | finished (d : HashDone m c') (u : c'.uninit = none) (r : remaining c = 1) : HashAdvance m c c'

section
variable {m : List Byte} {c : CoreState}

/-- R106 (43_driver_commands.md). -/
theorem HashInProgress.split_advances (h : HashInProgress m c) (hp : c.phase = .split) :
    HashAdvance m c (microSplit c) := by
  have hj := h.index_lt
  obtain ⟨b, hb, -⟩ := h.block
  have e : microSplit c = { c with W := loadWords (blockWords b) c.W, t := 16, phase := .expand } := by
    simp only [microSplit, if_pos hj, splitWords_of_holds h.cells h.length h.bits hb]
  rw [e]
  refine .further ⟨h.cells, h.length, h.bits, h.count, h.noRecord, h.hashState, b, hb, ?_⟩ ?_
  · exact ⟨Nat.le_refl 16, show 16 < 64 by decide, fun i hi h16 => getElem_loadWords_eq_expand b c.W hi h16⟩
  · rw [remaining_expand rfl, remaining_split hp]
    dsimp only
    omega

/-- R107 (43_driver_commands.md). -/
theorem HashInProgress.expand_advances (h : HashInProgress m c) (hp : c.phase = .expand) :
    (16 ≤ c.t ∧ c.t < 64) ∧ HashAdvance m c (microExpand c) := by
  have hj := h.index_lt
  obtain ⟨b, hb, hprog⟩ := h.block
  simp only [blockProgress, hp] at hprog
  obtain ⟨h16, h64, same⟩ := hprog
  have same' := scheduleStep_agrees ⟨h16, h64⟩ same
  refine ⟨⟨h16, h64⟩, ?_⟩
  by_cases ht : c.t + 1 = 64
  · have hp' : (microExpand c).phase = .vars := by simp [ht]
    have hW : scheduleStep c.W c.t = expand b := Vector.ext fun i hi => same' i hi (by omega)
    refine .further { h with block := ⟨b, hb, ?_⟩ } ?_
    · simp only [blockProgress, hp']
      exact hW
    · rw [remaining_vars hp', remaining_expand hp, microExpand_nblk, microExpand_j]
      omega
  · have hp' : (microExpand c).phase = .expand := by simp [ht]
    refine .further { h with block := ⟨b, hb, ?_⟩ } ?_
    · simp only [blockProgress, hp']
      exact ⟨Nat.le_succ_of_le h16, show c.t + 1 < 64 by omega, same'⟩
    · rw [remaining_expand hp', remaining_expand hp, microExpand_nblk, microExpand_j, microExpand_t]
      omega

/-- R108 (43_driver_commands.md). -/
theorem HashInProgress.vars_advances (h : HashInProgress m c) (hp : c.phase = .vars) :
    HashAdvance m c (microVars c) := by
  have hj := h.index_lt
  obtain ⟨b, hb, hprog⟩ := h.block
  simp only [blockProgress, hp] at hprog
  refine .further { h with block := ⟨b, hb, ?_⟩ } ?_
  · simp only [blockProgress, microVars_phase]
    exact ⟨by simp, hprog, rfl⟩
  · rw [remaining_round (microVars_phase c), remaining_vars hp, microVars_nblk, microVars_j, microVars_t]
    omega

/-- R109 (43_driver_commands.md). -/
theorem HashInProgress.round_advances (h : HashInProgress m c) (hp : c.phase = .round) :
    c.t < 64 ∧ HashAdvance m c (microRound c) := by
  have hj := h.index_lt
  obtain ⟨b, hb, hprog⟩ := h.block
  simp only [blockProgress, hp] at hprog
  obtain ⟨h64, hW, hv⟩ := hprog
  have hv' : (microRound c).vars = rounds (expand b) (initVars c.H) (c.t + 1) := by
    rw [microRound_vars, hW, hv, rounds]
  refine ⟨h64, ?_⟩
  by_cases ht : c.t + 1 = 64
  · have hp' : (microRound c).phase = .accum := by simp [ht]
    refine .further { h with block := ⟨b, hb, ?_⟩ } ?_
    · simp only [blockProgress, hp']
      exact ⟨hW, ht ▸ hv'⟩
    · rw [remaining_accum hp', remaining_round hp, microRound_nblk, microRound_j]
      omega
  · have hp' : (microRound c).phase = .round := by simp [ht]
    refine .further { h with block := ⟨b, hb, ?_⟩ } ?_
    · simp only [blockProgress, hp']
      exact ⟨show c.t + 1 < 64 by omega, hW, hv'⟩
    · rw [remaining_round hp', remaining_round hp, microRound_nblk, microRound_j, microRound_t]
      omega

/-- R110, R111 (43_driver_commands.md). -/
theorem HashInProgress.accum_advances (h : HashInProgress m c) (hp : c.phase = .accum) :
    HashAdvance m c (microAccum c) := by
  have hj := h.index_lt
  obtain ⟨b, hb, hprog⟩ := h.block
  simp only [blockProgress, hp] at hprog
  obtain ⟨hW, hv⟩ := hprog
  have hH : accumulate c.H c.vars = stateAfter m (c.j + 1) := by
    rw [stateAfter_succ hb, compress, hv, h.hashState]
  rcases microAccum_cases c with ⟨hnext, e⟩ | ⟨hlast, e⟩ <;> rw [e]
  · have hlen : c.j + 1 < (blocks (pad m)).length := by rwa [length_blocks_pad, ← h.count]
    refine .further { h with hashState := hH, block := ⟨_, List.getElem?_eq_getElem hlen, trivial⟩ } ?_
    rw [remaining_split rfl, remaining_accum hp]
    dsimp only
    omega
  · have hall : c.j + 1 = paddedBlocks m.length := by rw [← h.count]; omega
    refine .finished ⟨rfl, rfl, ?_⟩ h.noRecord ?_
    · exact hH.trans (hall ▸ stateAfter_all m)
    · rw [remaining_accum hp]
      omega

/-- R113, R114 (43_driver_commands.md): while `m` is being hashed the core's turn answers a next state, one micro-step
nearer to the completion. -/
theorem HashInProgress.coreStep_advances (h : HashInProgress m c) :
    ∃ c', coreStep c = .next c' ∧ HashAdvance m c c' := by
  cases hp : c.phase with
  | idle | faulted =>
    obtain ⟨b, _, hprog⟩ := h.block
    simp [blockProgress, hp] at hprog
  | split => exact ⟨_, by simp [coreStep, h.noRecord, hp], h.split_advances hp⟩
  | expand =>
    obtain ⟨ht, adv⟩ := h.expand_advances hp
    exact ⟨_, by simp [coreStep, h.noRecord, hp, ht], adv⟩
  | vars => exact ⟨_, by simp [coreStep, h.noRecord, hp], h.vars_advances hp⟩
  | round =>
    obtain ⟨ht, adv⟩ := h.round_advances hp
    exact ⟨_, by simp [coreStep, h.noRecord, hp, ht], adv⟩
  | accum => exact ⟨_, by simp [coreStep, h.noRecord, hp], h.accum_advances hp⟩

theorem HashInProgress.remaining_pos (h : HashInProgress m c) : 0 < remaining c := by
  obtain ⟨c', _, adv⟩ := h.coreStep_advances
  cases adv with
  | further _ r => omega
  | finished _ _ r => omega

end

/-- The core's turn of a schedule of its turns. -/
theorem step_coreTurns {s : State} {c : CoreState} (n : Nat) (rest : List Move) (h : coreStep s.core = .next c) :
    step { s with sched := coreTurns (n + 1) rest } = .next { s with core := c, sched := coreTurns n rest } := by
  rw [step_cons _ .core (coreTurns n rest) (by simp [coreTurns, List.replicate_succ]), runMove, coreMove]
  simp only [h]

/-- The turns of an idle core pass (R112, 43_driver_commands.md; log 2). -/
theorem run_coreTurns_idle {s : State} (hp : s.core.phase = .idle) (hu : s.core.uninit = none) (n : Nat)
    (rest : List Move) :
    Sys2Proof.core.run n { s with sched := coreTurns n rest } = .next { s with sched := rest } := by
  induction n with
  | zero => rfl
  | succ n ih =>
    have stays : coreStep s.core = .next s.core := by simp [coreStep, hu, hp]
    rw [run_succ n (step_coreTurns n rest stays)]
    exact ih

/-- R113, R114 (43_driver_commands.md): a HASH of `m` in progress, given at least as many turns of the core as there are
micro-steps left, completes with the digest of `m`; the turns touch nothing but the core, and in it neither the message
nor the error status. -/
theorem HashInProgress.run_coreTurns {m : List Byte} (rest : List Move) : ∀ {n : Nat} {s : State},
    HashInProgress m s.core → remaining s.core ≤ n →
    ∃ c, Sys2Proof.core.run n { s with sched := coreTurns n rest } = .next { s with core := c, sched := rest } ∧
      HashDone m c ∧ c.msg = s.core.msg ∧ c.msgLen = s.core.msgLen ∧ c.err = s.core.err ∧ c.errCode = s.core.errCode
  | 0, s, h, hn => absurd h.remaining_pos (by omega)
  | n + 1, s, h, hn => by
    obtain ⟨c, hc, adv⟩ := h.coreStep_advances
    obtain ⟨hmsg, hlen, -, -, -, herr, hcode⟩ := coreStep_frame hc
    rw [run_succ n (step_coreTurns n rest hc)]
    cases adv with
    | further p r =>
      obtain ⟨d, hrun, hdone, hmsg', hlen', herr', hcode'⟩ :=
        HashInProgress.run_coreTurns rest (s := { s with core := c }) (n := n) p (by dsimp only; omega)
      exact ⟨d, hrun, hdone, hmsg'.trans hmsg, hlen'.trans hlen, herr'.trans herr, hcode'.trans hcode⟩
    | finished d u _ =>
      exact ⟨c, run_coreTurns_idle (s := { s with core := c }) d.1 u n rest, d, hmsg, hlen, herr, hcode⟩

/-! # Proofs: the digest depends on the message alone -/

/-- The message a core would hash: the bytes of its cells below MSG_LEN. -/
def messageOf (c : CoreState) : List Byte := (List.range c.msgLen.toNat).map fun i => (c.msg.read i).getD 0#8

@[simp] theorem length_messageOf (c : CoreState) : (messageOf c).length = c.msgLen.toNat := by simp [messageOf]

/-- A memory that agrees with a core's written cells below MSG_LEN holds the core's message. -/
theorem holds_messageOf {c : CoreState} {mem : Memory}
    (h : ∀ i, i < c.msgLen.toNat → (c.msg.read i).isSome ∧ c.msg.read i = mem.read i) : mem.holds (messageOf c) := by
  intro i hi
  rw [length_messageOf] at hi
  obtain ⟨written, same⟩ := h i hi
  obtain ⟨b, hb⟩ := Option.isSome_iff_exists.mp written
  simp [messageOf, hi, hb, ← same]

/-- R104, R113, R114 (43_driver_commands.md): an idle core accepts HASH of a message in its memory and, after 115 turns
for each block or more, holds its digest. -/
theorem hash_runs_to_digest {m : List Byte} {s : State} (hp : s.core.phase = .idle) (hu : s.core.uninit = none)
    (hl : s.core.msgLen.toNat = m.length) (hfit : s.core.msgLen.toNat ≤ s.params.msgMaxBytes)
    (hm : s.core.msg.holds m) :
    ∃ t, exec .hash s = .next t ∧ ∀ n, 115 * paddedBlocks m.length ≤ n →
      ∃ u, Sys2Proof.core.run n { t with sched := coreTurns n [] } = .next u ∧ HashDone m u.core := by
  refine ⟨_, exec_hash_accepted hp hfit, fun n hn => ?_⟩
  have started := acceptHash_inProgress hu hl hm
  obtain ⟨c, hrun, hdone, -⟩ := HashInProgress.run_coreTurns [] (s := { s with core := acceptHash s.core }) started
    (n := n) (by rwa [remaining_acceptHash, hl])
  exact ⟨_, hrun, hdone⟩

/-- Settles O58: both cores run to the digest of the one message that their cells below MSG_LEN spell. -/
theorem digestDependsOnTheMessageAlone : Obligations.DigestDependsOnTheMessageAlone := by
  intro s₁ s₂ hp₁ hp₂ hu₁ hu₂ hlen hfit₁ hfit₂ agree
  have own : s₁.core.msg.holds (messageOf s₁.core) := holds_messageOf fun i hi => ⟨(agree i hi).1, rfl⟩
  obtain ⟨t₁, ht₁, run₁⟩ := hash_runs_to_digest hp₁ hu₁ (length_messageOf s₁.core).symm hfit₁ own
  obtain ⟨t₂, ht₂, run₂⟩ := hash_runs_to_digest hp₂ hu₂
    (hlen ▸ (length_messageOf s₁.core).symm) hfit₂ (holds_messageOf agree)
  refine ⟨t₁, t₂, 115 * paddedBlocks (messageOf s₁.core).length, ht₁, ht₂, fun n hn => ?_⟩
  obtain ⟨u₁, hu₁, -, hd₁, hH₁⟩ := run₁ n hn
  obtain ⟨u₂, hu₂, -, hd₂, hH₂⟩ := run₂ n hn
  exact ⟨u₁, u₂, hu₁, hu₂, hH₁.trans hH₂.symm, hd₁, hd₂⟩

end Sys2Proof.Machine

/-! # Proofs: the host's accesses, and HASH in every state -/

namespace Sys2Proof.Machine

/-! ### The registers' offsets, R40 (20_memory.md) -/

theorem access_cmd (p : Params) : access p 0x000 = .ok .cmd := rfl
theorem access_msgLen (p : Params) : access p 0x008 = .ok .msgLen := rfl
theorem access_caps (p : Params) : access p 0x00C = .ok .caps := rfl
theorem access_digest (p : Params) {i : Nat} (hi : i < 8) : access p (0x020 + 4 * i) = .ok (.digest ⟨i, hi⟩) :=
  access_of_target (by omega) (targetOf_digest p ⟨i, hi⟩)

/-! ### Reads, writes and addresses, R38, R39 (20_memory.md) -/

theorem busWrite_of_access {s : State} {off : Nat} {r : Target} (h : access s.params off = .ok r) (v : Word) :
    busWrite off v s = writeTarget r v { s with host := s.host.advance.wrote off v } := by
  rw [busWrite, h]

theorem busRead_of_access {s : State} {off : Nat} {r : Target} (h : access s.params off = .ok r) (x : Nat) :
    busRead off x s =
      .next { s with host := s.host.advance.got off x (readValue r s), draws := s.draws + drawsUsed r s } := by
  rw [busRead, h]

theorem offsetOf_base_add (p : Params) (off : Nat) : offsetOf p (p.base + off) 4 = .ok off := by
  simp [offsetOf]

/-- R39 (20_memory.md): a write at address BASE + off is the write at offset off. -/
theorem hostOp_memWrite_base_add (s : State) (off : Nat) (v : Word) :
    hostOp (.memWrite (s.params.base + off) 4 v) s = busWrite off v s := by
  rw [hostOp, offsetOf_base_add]

/-- The host's turn runs the next line of its program. -/
theorem step_of_hostLine {s : State} {op : HostOp} (hm : nextMove s = .host)
    (hop : s.host.prog[s.host.pc]? = some op) : step s = hostOp op (takeTurn s) := by
  rw [step, hm, runMove, hostMove, takeTurn_host, hop]

theorem cmdWrite_command {v : Word} {i : Instr} (h : decode v = .command i) (s : State) : cmdWrite v s = exec i s := by
  rw [cmdWrite, h]

/-- Settles O4: both forms of the line are the bus write at offset 0x000, whose target is CMD. -/
theorem stepRunsTheWrittenCommand : Obligations.StepRunsTheWrittenCommand := by
  intro s v i op hm hline hop hd
  have at_cmd : hostOp op (takeTurn s) = busWrite 0x000 v (takeTurn s) := by
    rcases hop with rfl | rfl
    · rfl
    · rw [← takeTurn_params s]
      exact hostOp_memWrite_base_add (takeTurn s) 0x000 v
  rw [step_of_hostLine hm hline, at_cmd, busWrite_of_access (access_cmd _), writeTarget, cmdWrite_command hd,
    takeTurn_host]

/-- R27 (10_state.md), R5 (00_scope.md): every capacity the spec admits fits in the word CAPS reads. -/
theorem toNat_caps {p : Params} (h : p.wf) : (BitVec.ofNat 32 p.msgMaxBytes).toNat = p.msgMaxBytes := by
  obtain ⟨-, -, hmax, -⟩ := h
  rw [BitVec.toNat_ofNat, Nat.mod_eq_of_lt (by omega)]

/-- R30 (10_state.md), R116 (43_driver_commands.md): DIGESTi of an idle core reads H[i], and draws no free value. -/
theorem busRead_digest_idle {s : State} (hp : s.core.phase = .idle) {i : Nat} (hi : i < 8) (x : Nat) :
    busRead (0x020 + 4 * i) x s = .next { s with host := s.host.advance.got (0x020 + 4 * i) x s.core.H[i] } := by
  rw [busRead_of_access (access_digest _ hi), readValue, drawsUsed, if_pos hp, if_pos hp]
  rfl

/-- Settles O32: each register's offset names it, and a read or write of it is its state. -/
theorem registersReadTheirState : Obligations.RegistersReadTheirState := by
  intro s x
  refine ⟨fun hp v => ?_, busRead_of_access (access_cmd _) x, busRead_of_access (access_msgLen _) x,
    ⟨_, busRead_of_access (access_caps _) x, toNat_caps⟩, fun hp i hi => busRead_digest_idle hp hi x⟩
  rw [busWrite_of_access (access_msgLen _), writeTarget, setMsgLen_idle v hp]

/-- Settles O7: the gate before the command decides busy and faulted, the length test the idle cases. -/
theorem hashIsAcceptedOrRejected : Obligations.HashIsAcceptedOrRejected := by
  intro s
  refine ⟨fun hp hlong => ?_, fun hb => ?_, fun hf => ?_, exec_hash_accepted⟩
  · rw [exec, execHash, commandGate_idle _ hp, hashWhenIdle_long hlong]
    rfl
  · rw [exec, execHash, commandGate_busy _ hb]
    rfl
  · rw [exec, execHash, commandGate_faulted _ hf]

/-! # Proofs: the machine's invariant -/

/-! ### At reset -/

/-- R5 (00_scope.md): the platform's parameters are ones the spec admits, whatever its raw values. -/
theorem params_wf : Config.params.wf := by
  have : Config.rawMsgWords % (2 ^ 30 - 1024) < 2 ^ 30 - 1024 := Nat.mod_lt _ (by decide)
  simp only [Params.wf, Config.params]
  omega

/-- Settles O43: the reset values of R36, read off. -/
theorem resetState : Obligations.ResetState :=
  ⟨rfl, rfl, rfl, rfl, rfl, rfl, fun _ hi => Vector.getElem_replicate hi, fun _ => rfl, by decide, params_wf⟩

/-- The core after reset meets the invariant, on a platform of any parameters (nblk, Lbits, lat_len, j and t by the
model's reset values, log 4). -/
theorem CoreState.Inv.atReset (p : Params) : CoreState.reset.Inv p where
  memoryCanonical := List.Pairwise.nil
  memoryInside _ _ := rfl
  blockCount := rfl
  bitCount := rfl
  blockIndex := by decide
  busyIndex := by decide
  busyLength := nofun
  busyNotDone := by decide
  counter := by decide
  expandRange := by decide
  roundRange := by decide
  notFaulted := by decide
  noFaultCode := rfl
  errorClear := by decide
  errorCodes := by decide
  recordedCell := nofun

/-- Settles O50. -/
theorem invariantAtReset : Obligations.InvariantAtReset := ⟨params_wf, CoreState.Inv.atReset _⟩

/-! ### Under a host write -/

section
variable {p : Params} {c c' : CoreState}

/-- An idle core has recorded no unwritten cell. -/
theorem CoreState.Inv.uninit_of_idle (h : c.Inv p) (hp : c.phase = .idle) : c.uninit = none := by
  cases hu : c.uninit with
  | none => rfl
  | some i =>
    obtain ⟨hsplit, -⟩ := h.recordedCell i hu
    rw [hp] at hsplit
    cases hsplit

/-- The invariant's clause on the recorded cell, of a core that has recorded none. -/
theorem recordedCell_of_none {P : Nat → Prop} (hu : c.uninit = none) : ∀ i, c.uninit = some i → P i := by
  intro i hi
  rw [hu] at hi
  cases hi

/-- R60 (30_encoding.md): a rejection shows one of the codes 1, 2 and 3. -/
theorem CoreState.Inv.reject (h : c.Inv p) {code : BitVec 4} (hcode : code = 0x1#4 ∨ code = 0x2#4 ∨ code = 0x3#4) :
    (reject code c).Inv p :=
  { h with
    errorClear := nofun
    errorCodes := fun _ => hcode }

theorem CoreState.Inv.clearError (h : c.Inv p) : (clearError c).Inv p :=
  { h with
    errorClear := fun _ => rfl
    errorCodes := nofun }

/-- R104 (43_driver_commands.md): acceptance latches the lengths that the invariant relates. -/
theorem CoreState.Inv.acceptHash (h : c.Inv p) (hp : c.phase = .idle) (hl : c.msgLen.toNat ≤ p.msgMaxBytes) :
    (acceptHash c).Inv p :=
  { h.clearError with
    blockCount := rfl
    bitCount := rfl
    blockIndex := Nat.zero_le _
    busyIndex := fun _ => Nat.succ_pos _
    busyLength := fun _ => ⟨rfl, hl⟩
    busyNotDone := fun _ => rfl
    expandRange := nofun
    roundRange := nofun
    notFaulted := nofun
    recordedCell := recordedCell_of_none (h.uninit_of_idle hp) }

theorem CmdEffect.inv (e : CmdEffect p c c') (h : c.Inv p) : c'.Inv p := by
  cases e with
  | ignored => exact h
  | busy => exact h.reject (.inr (.inl rfl))
  | illegal => exact h.reject (.inl rfl)
  | nop => exact h.clearError
  | long => exact h.reject (.inr (.inr rfl))
  | hash hp hl => exact h.acceptHash hp hl

/-- R26 (10_state.md): MSG_LEN is free while the core is idle, for only a busy core's latched length is tied to it. -/
theorem CoreState.Inv.withMsgLen (h : c.Inv p) (hp : c.phase = .idle) (v : Word) : { c with msgLen := v }.Inv p :=
  { h with busyLength := fun hb => absurd hp (Phase.ne_idle_of_busy hb) }

/-- R43 (20_memory.md): the four cells of a window word lie inside MSG_MAX_BYTES, a multiple of 4 (R5, 00_scope.md). -/
theorem CoreState.Inv.withMsgWord (hw : p.wf) (h : c.Inv p) (hp : c.phase = .idle) {k : Nat}
    (hk : 4 * k < p.msgMaxBytes) (v : Word) : { c with msg := c.msg.writeWord k v }.Inv p :=
  { h with
    memoryCanonical := Memory.writeWord_wf k v h.memoryCanonical
    memoryInside := fun i hi => by
      obtain ⟨hmul, -⟩ := hw
      rw [Memory.read_writeWord_other c.msg v (.inr (by omega))]
      exact h.memoryInside i hi
    recordedCell := recordedCell_of_none (h.uninit_of_idle hp) }

theorem WriteEffect.inv (e : WriteEffect p c c') (hw : p.wf) (h : c.Inv p) : c'.Inv p := by
  cases e with
  | none => exact h
  | cmd e => exact e.inv h
  | msgLen v hp => exact h.withMsgLen hp v
  | msgWord off v _ _ _ hp => exact h.withMsgWord hw hp (by omega) v

/-! ### Under a micro-step, R106 to R111 (43_driver_commands.md) -/

/-- What EXPAND can do. -/
theorem microExpand_cases (c : CoreState) :
    (c.t + 1 = 64 ∧ microExpand c = { c with W := scheduleStep c.W c.t, t := c.t + 1, phase := .vars }) ∨
    (c.t + 1 ≠ 64 ∧ microExpand c = { c with W := scheduleStep c.W c.t, t := c.t + 1, phase := .expand }) := by
  by_cases ht : c.t + 1 = 64
  · exact .inl ⟨ht, by rw [microExpand, if_pos ht]⟩
  · exact .inr ⟨ht, by rw [microExpand, if_neg ht]⟩

/-- What ROUND can do. -/
theorem microRound_cases (c : CoreState) :
    (c.t + 1 = 64 ∧ microRound c = { c with vars := roundAt c.W c.t c.vars, t := c.t + 1, phase := .accum }) ∨
    (c.t + 1 ≠ 64 ∧ microRound c = { c with vars := roundAt c.W c.t c.vars, t := c.t + 1, phase := .round }) := by
  by_cases ht : c.t + 1 = 64
  · exact .inl ⟨ht, by rw [microRound, if_pos ht]⟩
  · exact .inr ⟨ht, by rw [microRound, if_neg ht]⟩

/-- A micro-step that leaves the core busy, with a block left and its counter in the range of the phase, keeps the
invariant: it touches H, W, a..h, j, t and the phase only. -/
theorem CoreState.Inv.stays_busy (h : c.Inv p) (hb : c.phase.busy = true) (hu : c.uninit = none)
    {H : Vector Word 8} {W : Vector Word 64} {v : Vars} {j t : Nat} {ph : Phase} (hj : j < c.nblk) (ht : t ≤ 64)
    (hexpand : ph = .expand → 16 ≤ t ∧ t < 64) (hround : ph = .round → t < 64) (hph : ph ≠ .faulted) :
    { c with H := H, W := W, vars := v, j := j, t := t, phase := ph }.Inv p :=
  { h with
    blockIndex := hj.le
    busyIndex := fun _ => hj
    busyLength := fun _ => h.busyLength hb
    busyNotDone := fun _ => h.busyNotDone hb
    counter := ht
    expandRange := hexpand
    roundRange := hround
    notFaulted := hph
    recordedCell := recordedCell_of_none hu }

/-- R132 (60_exceptions.md): SPLIT never enters FAULT, for a busy core has a block left. -/
theorem CoreState.Inv.microSplit (h : c.Inv p) (hu : c.uninit = none) (hp : c.phase = .split) :
    (microSplit c).Inv p := by
  have hb : c.phase.busy = true := by rw [hp]; rfl
  have hj := h.busyIndex hb
  rcases microSplit_cases c with ⟨ws, _, _, e⟩ | ⟨i, _, hw, e⟩ | ⟨hn, _⟩
  · rw [e]
    exact h.stays_busy hb hu hj (by decide) (by decide) nofun nofun
  · obtain ⟨_, _, hlen, hcell⟩ := splitWords_error hw
    rw [e]
    refine { h with recordedCell := ?_ }
    rintro _ ⟨⟩
    exact ⟨hp, hlen, hcell⟩
  · exact absurd hj hn

theorem CoreState.Inv.microExpand (h : c.Inv p) (hu : c.uninit = none) (hp : c.phase = .expand) :
    (microExpand c).Inv p := by
  have hb : c.phase.busy = true := by rw [hp]; rfl
  obtain ⟨h16, h64⟩ := h.expandRange hp
  rcases microExpand_cases c with ⟨_, e⟩ | ⟨hlast, e⟩ <;> rw [e]
  · exact h.stays_busy hb hu (h.busyIndex hb) h64 nofun nofun nofun
  · exact h.stays_busy hb hu (h.busyIndex hb) h64 (fun _ => ⟨by omega, by omega⟩) nofun nofun

theorem CoreState.Inv.microVars (h : c.Inv p) (hu : c.uninit = none) (hp : c.phase = .vars) :
    (microVars c).Inv p := by
  have hb : c.phase.busy = true := by rw [hp]; rfl
  exact h.stays_busy hb hu (h.busyIndex hb) (by decide) nofun (by decide) nofun

theorem CoreState.Inv.microRound (h : c.Inv p) (hu : c.uninit = none) (hp : c.phase = .round) :
    (microRound c).Inv p := by
  have hb : c.phase.busy = true := by rw [hp]; rfl
  have h64 := h.roundRange hp
  rcases microRound_cases c with ⟨_, e⟩ | ⟨hlast, e⟩ <;> rw [e]
  · exact h.stays_busy hb hu (h.busyIndex hb) h64 nofun nofun nofun
  · exact h.stays_busy hb hu (h.busyIndex hb) h64 nofun (fun _ => by omega) nofun

theorem CoreState.Inv.microAccum (h : c.Inv p) (hu : c.uninit = none) (hp : c.phase = .accum) :
    (microAccum c).Inv p := by
  have hb : c.phase.busy = true := by rw [hp]; rfl
  rcases microAccum_cases c with ⟨hj, e⟩ | ⟨_, e⟩ <;> rw [e]
  · exact h.stays_busy hb hu hj h.counter nofun nofun nofun
  · exact
      { h with
        blockIndex := h.busyIndex hb
        busyIndex := nofun
        busyLength := nofun
        busyNotDone := nofun
        expandRange := nofun
        roundRange := nofun
        notFaulted := nofun
        recordedCell := recordedCell_of_none hu }

theorem CoreState.Inv.coreStep (h : c.Inv p) (hc : coreStep c = .next c') : c'.Inv p := by
  obtain ⟨hu, e⟩ := coreStep_effect hc
  cases e with
  | none => exact h
  | split hp => exact h.microSplit hu hp
  | expand hp => exact h.microExpand hu hp
  | vars hp => exact h.microVars hu hp
  | round hp => exact h.microRound hu hp
  | accum hp => exact h.microAccum hu hp

/-! ### Under every step -/

theorem StepEffect.inv {m : Move} (e : StepEffect p c m c') (hw : p.wf) (h : c.Inv p) : c'.Inv p := by
  cases e with
  | host e => exact e.inv hw h
  | core hc => exact h.coreStep hc
  | reset => exact .atReset p

end

/-- Settles O51: a step leaves the parameters alone, and each agent's effect on the core keeps the core's invariant. -/
theorem stepKeepsTheInvariant : Obligations.StepKeepsTheInvariant := by
  intro s t hs h
  obtain ⟨hp, e⟩ := step_effect h
  constructor <;> rw [hp]
  · exact hs.params
  · exact e.inv hs.params hs.core

end Sys2Proof.Machine

/-! # Proofs: the register map, the message window, and the accesses the core takes -/

namespace Sys2Proof.Machine

/-! ### The register map, R40 (20_memory.md) -/

theorem access_status (p : Params) : access p 0x004 = .ok .status := rfl

theorem access_window {p : Params} {k : Nat} (hk : 4 * k < p.msgMaxBytes) :
    access p (0x1000 + 4 * k) = .ok (.msgWord k) :=
  access_of_target (by omega) (targetOf_window hk)

/-- What each target says of the offset that names it. -/
inductive RegisterMap (p : Params) (off : Nat) : Target → Prop where
  | cmd (h : off = 0x000) : RegisterMap p off .cmd
  | status (h : off = 0x004) : RegisterMap p off .status
  | msgLen (h : off = 0x008) : RegisterMap p off .msgLen
  | caps (h : off = 0x00C) : RegisterMap p off .caps
  | digest (i : Fin 8) (h : 0x020 ≤ off ∧ off < 0x040) : RegisterMap p off (.digest i)
  | reserved (hne : off ≠ 0x008) (h : off < 0x1000) : RegisterMap p off .reserved
  | msgWord (h : 0x1000 ≤ off) (hin : off < 0x1000 + p.msgMaxBytes) :
      RegisterMap p off (.msgWord ((off - 0x1000) / 4))

theorem registerMap_of_access {p : Params} {off : Nat} {r : Target} (h : access p off = .ok r) :
    RegisterMap p off r := by
  obtain ⟨-, ht⟩ := access_ok h
  unfold targetOf at ht
  split_ifs at ht <;> cases ht
  · exact .cmd ‹_›
  · exact .status ‹_›
  · exact .msgLen ‹_›
  · exact .caps ‹_›
  · exact .digest _ ‹_›
  · exact .reserved ‹_› ‹_›
  · exact .msgWord (by omega) ‹_›

/-- R41 (20_memory.md): the offsets between the registers, and from the digest to the window, are reserved. -/
theorem access_reserved {p : Params} {off : Nat} (ha : off % 4 = 0)
    (h : 0x010 ≤ off ∧ off ≤ 0x01C ∨ 0x040 ≤ off ∧ off ≤ 0xFFC) : access p off = .ok .reserved := by
  refine access_of_target ha ?_
  unfold targetOf
  rw [if_neg (by omega), if_neg (by omega), if_neg (by omega), if_neg (by omega), dif_neg (by omega),
    if_pos (by omega)]

/-! ### Addresses, R39, R42 (20_memory.md) -/

/-- R39 (20_memory.md): a read at address BASE + off is the read at offset off. -/
theorem hostOp_memRead_base_add (s : State) (off x : Nat) :
    hostOp (.memRead (s.params.base + off) 4 x) s = busRead off x s := by
  rw [hostOp, offsetOf_base_add]

/-- Settles O39. -/
theorem offsetsAreAddressesLessBase : Obligations.OffsetsAreAddressesLessBase :=
  fun s off x v => ⟨hostOp_memWrite_base_add s off v, hostOp_memRead_base_add s off x⟩

/-- R38, R39, R42 (20_memory.md): an address gives an offset exactly for a width of 4 and from BASE on. -/
theorem offsetOf_cases (p : Params) (addr width : Nat) :
    (width = 4 ∧ p.base ≤ addr ∧ offsetOf p addr width = .ok (addr - p.base)) ∨
    (¬ (width = 4 ∧ p.base ≤ addr) ∧ ∃ e, offsetOf p addr width = .error e) := by
  unfold offsetOf
  split_ifs with hw hb
  · exact .inl ⟨hw, hb, rfl⟩
  · exact .inr ⟨fun h => hb h.2, _, rfl⟩
  · exact .inr ⟨fun h => hw h.1, _, rfl⟩

/-! ### Which accesses are taken, R42 (20_memory.md) -/

/-- The access answers a next state where `P` holds and is refused where it does not. -/
def TakenExactlyWhen (P : Prop) (o : Host.Outcome State Fault Refusal) : Prop :=
  (P → ∃ t, o = .next t) ∧ (¬ P → ∃ e, o = .refused e)

theorem TakenExactlyWhen.of_refused {P : Prop} {e : Refusal} (h : ¬ P) : TakenExactlyWhen P (.refused e) :=
  ⟨fun hp => absurd hp h, fun _ => ⟨e, rfl⟩⟩

/-- A write to any target answers a next state. -/
theorem writeTarget_next (r : Target) (v : Word) (s : State) : ∃ t, writeTarget r v s = .next t := by
  cases r with
  | cmd =>
    obtain ⟨c, hc, -⟩ := cmdWrite_effect v s
    exact ⟨_, hc⟩
  | _ => exact ⟨_, rfl⟩

theorem busWrite_taken (off : Nat) (v : Word) (s : State) :
    TakenExactlyWhen (offsetInContract s.params off) (busWrite off v s) := by
  constructor
  · rintro ⟨ha, hin⟩
    obtain ⟨r, hr⟩ := access_of_contract ha hin
    rw [busWrite_of_access hr]
    exact writeTarget_next r v _
  · intro hn
    obtain ⟨e, he⟩ := access_error hn
    exact ⟨e, by rw [busWrite, he]⟩

theorem busRead_taken (off x : Nat) (s : State) :
    TakenExactlyWhen (offsetInContract s.params off) (busRead off x s) := by
  constructor
  · rintro ⟨ha, hin⟩
    obtain ⟨r, hr⟩ := access_of_contract ha hin
    exact ⟨_, busRead_of_access hr x⟩
  · intro hn
    obtain ⟨e, he⟩ := access_error hn
    exact ⟨e, by rw [busRead, he]⟩

/-- Settles O37: an address gives an offset or is refused, and an offset is taken exactly inside the contract. -/
theorem accessesOutsideTheContractAreRefused : Obligations.AccessesOutsideTheContractAreRefused := by
  intro op s
  show TakenExactlyWhen (op.inContract s.params) (hostOp op s)
  cases op with
  | wr off v => exact busWrite_taken off v s
  | rd off x => exact busRead_taken off x s
  | bnz x m target => exact ⟨fun _ => ⟨_, rfl⟩, fun hn => absurd trivial hn⟩
  | memWrite addr width v =>
    rcases offsetOf_cases s.params addr width with ⟨rfl, hb, ho⟩ | ⟨hn, e, he⟩
    · rw [hostOp, ho]
      simpa only [HostOp.inContract, hb, true_and] using busWrite_taken (addr - s.params.base) v s
    · rw [hostOp, he]
      exact .of_refused fun ⟨hw, hb, _⟩ => hn ⟨hw, hb⟩
  | memRead addr width x =>
    rcases offsetOf_cases s.params addr width with ⟨rfl, hb, ho⟩ | ⟨hn, e, he⟩
    · rw [hostOp, ho]
      simpa only [HostOp.inContract, hb, true_and] using busRead_taken (addr - s.params.base) x s
    · rw [hostOp, he]
      exact .of_refused fun ⟨hw, hb, _⟩ => hn ⟨hw, hb⟩

/-! ### The message window, R43, R44 (20_memory.md) -/

/-- Settles O33: the store to the window's word is `writeWord`, whose cells are known. -/
theorem windowWriteStoresFourBytes : Obligations.WindowWriteStoresFourBytes := by
  intro s k v hk hb hf
  have hp : s.core.phase = .idle := (Phase.busy_eq_false.mp hb).resolve_right hf
  refine ⟨s.core.msg.writeWord k v, ?_, ?_, ?_, ?_, ?_, fun i hi => Memory.read_writeWord_other _ v hi⟩
  · rw [busWrite_of_access (access_window hk), writeTarget, setMsgWord_idle k v hp]
  all_goals simp [Memory.read_writeWord, byteBe32]

/-- R44 (20_memory.md): byte j of a window word is its cell 4k + j. -/
theorem byteBe32_readWord (m : Memory) (resets k : Nat) {j : Nat} (hj : j < 4) :
    byteBe32 (m.readWord resets k) j = m.readOrFree resets (4 * k + j) := by
  obtain ⟨h0, h1, h2, h3⟩ := byteBe32_be32 (m.readOrFree resets (4 * k)) (m.readOrFree resets (4 * k + 1))
    (m.readOrFree resets (4 * k + 2)) (m.readOrFree resets (4 * k + 3))
  match j, hj with
  | 0, _ => exact h0
  | 1, _ => exact h1
  | 2, _ => exact h2
  | 3, _ => exact h3

/-- Settles O34: the value read is `readWord`, and a written cell reads as its byte. -/
theorem windowReadReturnsTheCells : Obligations.WindowReadReturnsTheCells := by
  intro s k x hk
  refine ⟨s.core.msg.readWord s.resets k, busRead_of_access (access_window hk) x, fun j b hj hcell => ?_⟩
  exact (byteBe32_readWord s.core.msg s.resets k hj).trans (Memory.readOrFree_of_some hcell)

/-! ### What a write outside CMD stores, R41, R45 (20_memory.md) -/

/-- Settles O35: the inputs of a core that is not idle are locked. -/
theorem inputWritesAreIgnoredWhileBusy : Obligations.InputWritesAreIgnoredWhileBusy := by
  intro s v hlocked
  have hp : s.core.phase ≠ .idle := by
    rcases hlocked with hb | hf
    · exact Phase.ne_idle_of_busy hb
    · rw [hf]; decide
  refine ⟨?_, fun k hk => ?_⟩
  · rw [busWrite_of_access (access_msgLen _), writeTarget, setMsgLen_locked v hp]
  · rw [busWrite_of_access (access_window hk), writeTarget, setMsgWord_locked k v hp]

/-- Settles O36: a reserved offset names no register, and reserved and read-only targets ignore a write. -/
theorem reservedAndReadOnlyOffsets : Obligations.ReservedAndReadOnlyOffsets := by
  intro s off x v ha
  refine ⟨fun hres => ?_, ?_⟩
  · have hr : access s.params off = .ok .reserved := access_reserved ha hres
    exact ⟨busRead_of_access hr x, busWrite_of_access hr v⟩
  · rintro (rfl | rfl | hdigest)
    · exact busWrite_of_access (access_status _) v
    · exact busWrite_of_access (access_caps _) v
    · obtain ⟨i, hi, rfl⟩ : ∃ i, i < 8 ∧ off = 0x020 + 4 * i := ⟨(off - 0x020) / 4, by omega, by omega⟩
      exact busWrite_of_access (access_digest _ hi) v

theorem setMsgLen_eq (v : Word) (c : CoreState) :
    setMsgLen v c = { c with msgLen := if c.phase = .idle then v else c.msgLen } := by
  split_ifs with hp
  · exact setMsgLen_idle v hp
  · exact setMsgLen_locked v hp

theorem setMsgWord_eq (k : Nat) (v : Word) (c : CoreState) :
    setMsgWord k v c = { c with msg := if c.phase = .idle then c.msg.writeWord k v else c.msg } := by
  split_ifs with hp
  · exact setMsgWord_idle k v hp
  · exact setMsgWord_locked k v hp

/-- R48 (20_memory.md): a write elsewhere than to CMD stores its value and does nothing else. -/
theorem busWrite_stores {s : State} {off : Nat} (ha : off % 4 = 0) (hin : off < 0x1000 + s.params.msgMaxBytes)
    (hcmd : off ≠ 0x000) (v : Word) :
    busWrite off v s = .next { s with
      host := s.host.advance.wrote off v
      core := { s.core with
        msgLen := if off = 0x008 ∧ s.core.phase = .idle then v else s.core.msgLen
        msg := if 0x1000 ≤ off ∧ s.core.phase = .idle then s.core.msg.writeWord ((off - 0x1000) / 4) v
          else s.core.msg } } := by
  obtain ⟨r, hr⟩ := access_of_contract ha hin
  rw [busWrite_of_access hr]
  cases registerMap_of_access hr with
  | cmd h => exact absurd h hcmd
  | msgLen h => simp [writeTarget, setMsgLen_eq, h]
  | msgWord h _ => simp [writeTarget, setMsgWord_eq, h, show off ≠ 8 by omega]
  | status | caps | digest | reserved =>
    simp [writeTarget, show off ≠ 8 by omega, show ¬ 4096 ≤ off by omega]

/-! ### Reads, R48 (20_memory.md) -/

/-- Only DIGESTi at a core that is not idle draws a free value. -/
theorem drawsUsed_eq_zero {s : State} {off : Nat} {r : Target} (m : RegisterMap s.params off r)
    (h : ¬ (0x020 ≤ off ∧ off < 0x040 ∧ s.core.phase ≠ .idle)) : drawsUsed r s = 0 := by
  cases m with
  | digest i hoff =>
    have hp : s.core.phase = .idle := by
      by_contra hp
      exact h ⟨hoff.1, hoff.2, hp⟩
    rw [drawsUsed, if_pos hp]
  | _ => rfl

theorem busRead_of_no_draw {s : State} {off : Nat} {r : Target} (hr : access s.params off = .ok r)
    (hd : drawsUsed r s = 0) (x : Nat) :
    busRead off x s = .next { s with host := s.host.advance.got off x (readValue r s) } := by
  rw [busRead_of_access hr, hd, Nat.add_zero]

/-- R50 (20_memory.md), R104 (43_driver_commands.md): a HASH written to an idle core, with a length that fits, is
accepted in the same step as the write. -/
theorem busWrite_hash_accepted {s : State} (hp : s.core.phase = .idle)
    (hl : s.core.msgLen.toNat ≤ s.params.msgMaxBytes) :
    busWrite 0x000 0x00000001#32 s =
      .next { s with host := s.host.advance.wrote 0x000 0x00000001#32, core := acceptHash s.core } := by
  rw [busWrite_of_access (access_cmd _), writeTarget, cmdWrite_command (i := .hash) (by decide)]
  exact exec_hash_accepted (s := { s with host := s.host.advance.wrote 0x000 0x00000001#32 }) hp hl

/-- Settles O38: what a read returns and draws does not depend on the host's side, the only thing a read that draws
nothing changes; a write outside CMD is a store; a HASH written to an idle core is accepted. -/
theorem readsHaveNoEffect : Obligations.ReadsHaveNoEffect := by
  refine ⟨fun s off x ha hin => ?_, fun s off v ha hin hcmd => ?_, fun s hp hl => ?_⟩
  · obtain ⟨r, hr⟩ := access_of_contract ha hin
    refine ⟨readValue r s, s.draws + drawsUsed r s, busRead_of_access hr x, fun hfree => ?_⟩
    have hd : drawsUsed r s = 0 := drawsUsed_eq_zero (registerMap_of_access hr) hfree
    exact ⟨by rw [hd, Nat.add_zero], fun y g => busRead_of_no_draw (s := { s with host := g }) hr hd y⟩
  · exact ⟨busWrite_stores ha hin hcmd v, fun i _ hi => Memory.read_writeWord_other _ v (by omega)⟩
  · exact ⟨_, busWrite_hash_accepted hp hl, rfl, rfl, rfl⟩

/-! # Proofs: a busy core in one step -/

/-- R45 (20_memory.md), R125 (60_exceptions.md): while busy a host write changes nothing in the core, or is rejected. -/
theorem WriteEffect.of_busy {p : Params} {c c' : CoreState} (e : WriteEffect p c c') (hb : c.phase.busy = true) :
    c' = c ∨ c' = reject ErrCode.cmdWhileBusy c := by
  have not_idle := Phase.ne_idle_of_busy hb
  cases e with
  | none => exact .inl rfl
  | msgLen _ hp | msgWord _ _ _ _ _ hp => exact absurd hp not_idle
  | cmd e =>
    cases e with
    | ignored => exact .inl rfl
    | busy => exact .inr rfl
    | illegal hp | nop hp | long hp | hash hp => exact absurd hp not_idle

/-- Settles O46: neither a rejection nor a micro-step touches the cells or MSG_LEN. -/
theorem messageIsStableWhileBusy : Obligations.MessageIsStableWhileBusy := by
  intro s t h hn hb
  have frame : t.core.msg = s.core.msg ∧ t.core.msgLen = s.core.msgLen := by
    rcases step_effect_of_ne_reset h hn with ⟨_, e⟩ | ⟨_, hc⟩
    · rcases e.of_busy hb with e | e <;> rw [e] <;> exact ⟨rfl, rfl⟩
    · obtain ⟨hmsg, hlen, -⟩ := coreStep_frame hc
      exact ⟨hmsg, hlen⟩
  exact ⟨fun i => by rw [frame.1], frame.2⟩

/-- R106 to R111 (43_driver_commands.md): a micro-step leaves the core busy, enters FAULT or is the ACCUM that
completes. -/
theorem coreStep_of_busy {c c' : CoreState} (hc : coreStep c = .next c') (hb : c.phase.busy = true) :
    c'.phase.busy = true ∨ c'.phase = .faulted ∨ (c.phase = .accum ∧ c'.phase = .idle ∧ c'.done = true) := by
  obtain ⟨-, e⟩ := coreStep_effect hc
  cases e with
  | none hn => rw [hb] at hn; cases hn
  | split =>
    rcases microSplit_cases c with ⟨_, _, _, e⟩ | ⟨_, _, _, e⟩ | ⟨_, e⟩ <;> rw [e]
    · exact .inl rfl
    · exact .inl hb
    · exact .inr (.inl rfl)
  | expand => rcases microExpand_cases c with ⟨_, e⟩ | ⟨_, e⟩ <;> rw [e] <;> exact .inl rfl
  | vars => exact .inl rfl
  | round => rcases microRound_cases c with ⟨_, e⟩ | ⟨_, e⟩ <;> rw [e] <;> exact .inl rfl
  | accum hp =>
    rcases microAccum_cases c with ⟨_, e⟩ | ⟨_, e⟩ <;> rw [e]
    · exact .inl rfl
    · exact .inr (.inr ⟨hp, rfl, rfl⟩)

/-- Settles O49: the step keeps the invariant, by which the core is not faulted and a busy one has DONE 0. -/
theorem doneIsNeverStale : Obligations.DoneIsNeverStale := by
  intro s t hs h hn hb
  have ht : t.core.Inv t.params := (stepKeepsTheInvariant s t hs h).core
  have still_busy (hb' : t.core.phase.busy = true) : t.core.phase.busy = true ∧ t.core.done = false :=
    ⟨hb', ht.busyNotDone hb'⟩
  rcases step_effect_of_ne_reset h hn with ⟨_, e⟩ | ⟨hm, hc⟩
  · refine .inl (still_busy ?_)
    rcases e.of_busy hb with e | e <;> rw [e] <;> exact hb
  · rcases coreStep_of_busy hc hb with hb' | hf | ⟨hp, hidle, hdone⟩
    · exact .inl (still_busy hb')
    · exact absurd hf ht.notFaulted
    · exact .inr ⟨hidle, hdone, hp, hm⟩

end Sys2Proof.Machine

/-! # Proofs: the decoder -/

namespace Sys2Proof

/-- R55 (30_encoding.md): the two fields make up the word, so no bit of it is in neither. -/
theorem rsvdField_append_opField (v : Word) : rsvdField v ++ opField v = v :=
  (BitVec.extractLsb'_append_extractLsb'_eq_extractLsb' rfl).trans BitVec.extractLsb'_eq_self

theorem encodedWord (i : Instr) : Laws.EncodedWord.Statement i := by
  cases i with
  | nop => exact Laws.EncodedWord.nop
  | hash => exact Laws.EncodedWord.hash

/-- R55, R56 (30_encoding.md): a command's word is the one word with its two fields. -/
theorem eq_encode_iff {v : Word} {i : Instr} : v = encode i ↔ rsvdField v = 0#28 ∧ opField v = opCode i := by
  constructor
  · rintro rfl
    obtain ⟨-, -, hrsvd, hop⟩ := encodedWord i
    exact ⟨hrsvd, hop⟩
  · rintro ⟨hrsvd, hop⟩
    rw [← rsvdField_append_opField v, hrsvd, hop, encode]

/-- No two commands share an operation code (R56, 30_encoding.md), so the order of the decoder's tests is no matter. -/
theorem opCode_inj {i k : Instr} : opCode i = opCode k ↔ i = k := by
  cases i <;> cases k <;> decide

/-- R57 (30_encoding.md): what the decoder tests. -/
theorem decode_eq_command_iff_fields {v : Word} {i : Instr} :
    decode v = .command i ↔ rsvdField v = 0#28 ∧ opField v = opCode i := by
  unfold decode
  split_ifs with hrsvd hnop hhash
  · simp [hrsvd, hnop, opCode_inj]
  · simp [hrsvd, hhash, opCode_inj]
  · cases i <;> simp [hnop, hhash]
  · simp [hrsvd]

/-- A word decodes to a command exactly when it is that command's word. -/
theorem decode_eq_command_iff {v : Word} {i : Instr} : decode v = .command i ↔ v = encode i :=
  decode_eq_command_iff_fields.trans eq_encode_iff.symm

theorem decode_encode (i : Instr) : decode (encode i) = .command i := decode_eq_command_iff.mpr rfl

theorem decodeTableWord_eq_some_iff {w : Nat} {i : Instr} (hw : w < 2 ^ 32) :
    decodeTableWord 32 w = some i ↔ decode (BitVec.ofNat 32 w) = .command i := by
  rw [decodeTableWord, Nat.mod_eq_of_lt hw, if_pos hw]
  cases decode (BitVec.ofNat 32 w) <;> simp

/-- The bits of a table row decode to a command exactly when they are that command's word. -/
theorem decodeTableWord_eq_some_iff_toNat {w : Nat} {i : Instr} (hw : w < 2 ^ 32) :
    decodeTableWord 32 w = some i ↔ w = (encode i).toNat := by
  rw [decodeTableWord_eq_some_iff hw, decode_eq_command_iff, ← BitVec.toNat_inj, BitVec.toNat_ofNat,
    Nat.mod_eq_of_lt hw]

/-- R57 (30_encoding.md): only legal words decode to commands. -/
theorem decode_illegal_of_not_legalWord {v : Word} (h : ¬ legalWord v) : ∃ why, decode v = .illegal why := by
  cases hd : decode v with
  | illegal why => exact ⟨why, rfl⟩
  | command i =>
    obtain ⟨-, hlegal, -⟩ := encodedWord i
    exact absurd (decode_eq_command_iff.mp hd ▸ hlegal) h

/-- Settles O2: a word is its two fields, and the decoder tests the fields of the command's word. -/
theorem decodeAndEncodeAgree : Obligations.DecodeAndEncodeAgree :=
  ⟨fun i _ => ⟨decode_encode i, (decodeTableWord_eq_some_iff_toNat (encode i).isLt).mpr rfl⟩,
    fun _ _ => decode_eq_command_iff.mp,
    fun _ _ hw => (decodeTableWord_eq_some_iff_toNat hw).mp⟩

/-- Settles O1: the two legal words are the commands' words, and a command's word is legal. -/
theorem decodeIsTheRule : Obligations.DecodeIsTheRule := by
  intro v
  refine ⟨?_, ?_, fun hnop hhash => decode_illegal_of_not_legalWord (not_or.mpr ⟨hnop, hhash⟩)⟩
  · rintro rfl
    exact decode_encode .nop
  · rintro rfl
    exact decode_encode .hash

/-- Settles O3: the first two words are the commands' own, the others fail the test named. -/
theorem writtenOutWordsDecode : Obligations.WrittenOutWordsDecode :=
  ⟨decode_encode .nop, decode_encode .hash, by decide, by decide, by decide⟩

end Sys2Proof

/-! # Proofs: the STATUS word, and the poll on it -/

namespace Sys2Proof.Machine

theorem getLsbD_flagWord (b : Bool) (i : Nat) : (flagWord b).getLsbD i = (decide (i = 0) && b) := by
  cases b <;> cases i <;> simp [flagWord]

/-- R59 (30_encoding.md): the STATUS word, bit by bit; past bit 7 the code has no bits. -/
theorem getLsbD_statusWord (c : CoreState) (i : Nat) :
    (statusWord c).getLsbD i =
      if i = 0 then c.phase.busy
      else if i = 1 then c.done
      else if i = 2 then errShown c
      else if i = 3 then c.phase.fault
      else (errCodeShown c).getLsbD (i - 4) := by
  simp only [statusWord, BitVec.getLsbD_or, BitVec.getLsbD_shiftLeft, BitVec.getLsbD_setWidth, getLsbD_flagWord]
  match i with
  | 0 | 1 | 2 | 3 => simp
  | i + 4 =>
    by_cases hi : i < 4
    · simp [show i + 4 < 32 by omega, show i < 32 by omega]
    · simp [BitVec.getLsbD_of_ge (errCodeShown c) i (by omega)]

theorem Phase.busy_eq_true {ph : Phase} :
    ph.busy = true ↔ ph = .split ∨ ph = .expand ∨ ph = .vars ∨ ph = .round ∨ ph = .accum := by
  cases ph <;> decide

theorem errShown_eq_true {c : CoreState} : errShown c = true ↔ c.phase = .faulted ∨ c.err = true := by
  rw [errShown, Bool.or_eq_true, Phase.fault_eq_true]

theorem errCodeShown_eq (c : CoreState) : errCodeShown c = if c.phase = .faulted then c.fCode else c.errCode := by
  simp only [errCodeShown, Phase.fault_eq_true]

theorem reserved_statusWord (c : CoreState) : (statusWord c).extractLsb' 8 24 = 0#24 := by
  refine BitVec.eq_of_getLsbD_eq fun i hi => ?_
  rw [BitVec.getLsbD_extractLsb', getLsbD_statusWord, if_neg (by omega), if_neg (by omega), if_neg (by omega),
    if_neg (by omega), BitVec.getLsbD_of_ge _ _ (by omega)]
  simp

theorem code_statusWord (c : CoreState) : (statusWord c).extractLsb' 4 4 = errCodeShown c := by
  refine BitVec.eq_of_getLsbD_eq fun i hi => ?_
  rw [BitVec.getLsbD_extractLsb', getLsbD_statusWord, if_neg (by omega), if_neg (by omega), if_neg (by omega),
    if_neg (by omega), Nat.add_sub_cancel_left]
  simp [hi]

theorem busRead_status (x : Nat) (s : State) :
    busRead 0x004 x s = .next { s with host := s.host.advance.got 0x004 x (statusWord s.core) } :=
  busRead_of_no_draw (access_status _) rfl x

/-- Settles O31: each field is the STATUS word's bits at its place. -/
theorem statusWordLayout : Obligations.StatusWordLayout := by
  intro s
  refine ⟨reserved_statusWord _, (code_statusWord _).trans (errCodeShown_eq _), ?_, ?_, ?_, ?_,
    fun x => busRead_status x s⟩ <;> rw [getLsbD_statusWord]
  · exact Phase.fault_eq_true
  · exact errShown_eq_true
  · rfl
  · exact Phase.busy_eq_true

/-- R59 (30_encoding.md): the mask of the poll picks the BUSY bit. -/
theorem statusWord_and_one_eq_zero (c : CoreState) : statusWord c &&& 0x1#32 = 0#32 ↔ ¬ c.phase.busy = true := by
  rw [BitVec.and_one_eq_setWidth_ofBool_getLsbD, getLsbD_statusWord, if_pos rfl]
  cases c.phase.busy <;> decide

@[simp] theorem HostAgent.var_got (g : HostAgent) (off x : Nat) (v : Word) : (g.got off x v).var x = v := by
  simp [HostAgent.var]

/-- R64 (30_encoding.md): bnz moves the host's position and nothing else. -/
theorem HostAgent.branch_eq (g : HostAgent) (x : Nat) (m : Word) (target : Nat) :
    g.branch x m target = { g with pc := if g.var x &&& m = 0#32 then g.pc + 1 else target } := by
  unfold HostAgent.branch
  split_ifs <;> rfl

theorem hostOp_bnz (s : State) (x target : Nat) (m : Word) :
    hostOp (.bnz x m target) s = .next { s with host := { s.host with
      pc := if s.host.var x &&& m = 0#32 then s.host.pc + 1 else target } } := by
  rw [hostOp, HostAgent.branch_eq]

/-- A host's turn that the schedule names runs the next line of the host's program. -/
theorem step_of_scheduled_hostLine {s : State} {op : HostOp} {rest : List Move} (hs : s.sched = .host :: rest)
    (hop : s.host.prog[s.host.pc]? = some op) : step s = hostOp op { s with sched := rest } := by
  rw [step_of_hostLine (nextMove_cons s _ _ hs) hop, takeTurn_cons s _ _ hs]

/-- Settles O40: the first turn reads STATUS, the second branches on its BUSY bit. -/
theorem pollLoopsWhileBusy : Obligations.PollLoopsWhileBusy := by
  refine ⟨hostOp_bnz, fun s x rest hs hrd hbnz => ?_⟩
  have read := step_of_scheduled_hostLine hs hrd
  rw [hostOp, busRead_status] at read
  refine ⟨_, _, read, (step_of_scheduled_hostLine rfl hbnz).trans (hostOp_bnz _ _ _ _), rfl, rfl, ?_⟩
  simp only [HostAgent.var_got, statusWord_and_one_eq_zero, ite_not]
  rfl

/-! # Proofs: the host program's expansion -/

/-- R9 (00_scope.md): byte j of a big-endian word whose bytes a function gives. -/
theorem byteBe32_be32_of_bytes (f : Nat → Byte) {j : Nat} (hj : j < 4) :
    byteBe32 (be32 (f 0) (f 1) (f 2) (f 3)) j = f j := by
  obtain ⟨h0, h1, h2, h3⟩ := byteBe32_be32 (f 0) (f 1) (f 2) (f 3)
  match j, hj with
  | 0, _ => exact h0
  | 1, _ => exact h1
  | 2, _ => exact h2
  | 3, _ => exact h3

/-- R65 (30_encoding.md): byte j of the k-th word of `load` is byte 4k + j of the message, 0x00 past its end. -/
theorem byteBe32_loadWord (bytes : List Byte) (k : Nat) {j : Nat} (hj : j < 4) :
    byteBe32 (loadWord bytes k) j = bytes.getD (4 * k + j) 0x00#8 :=
  byteBe32_be32_of_bytes (fun j => bytes.getD (4 * k + j) 0x00#8) hj

theorem lt_loadCount {k n : Nat} : k < loadCount n ↔ 4 * k < n := by
  unfold loadCount; omega

/-- Settles O41: each expansion is its own definition; the words of `load` are counted and read byte by byte. -/
theorem pseudoInstructionsExpand : Obligations.PseudoInstructionsExpand := by
  intro labels pos
  refine ⟨rfl, rfl, fun x => rfl, fun k v => rfl, fun bytes => ?_, fun x => ?_⟩
  · refine ⟨_, _, rfl, rfl, fun k => ?_, fun k hk => ?_⟩
    · rw [List.length_map, List.length_range, lt_loadCount]
    · rw [List.length_map, List.length_range] at hk
      refine ⟨loadWord bytes k, ?_, fun j hj => byteBe32_loadWord bytes k hj⟩
      rw [List.getElem?_map, List.getElem?_range hk]
      rfl
  · refine ⟨_, rfl, rfl, fun i hi => ?_⟩
    rw [List.getElem?_map, List.getElem?_range hi]
    rfl

/-- How many host steps some lines become. -/
def linesSize (lines : List Line) : Nat := (lines.map lineSize).sum

@[simp] theorem linesSize_nil : linesSize [] = 0 := rfl

@[simp] theorem linesSize_cons (ln : Line) (lines : List Line) :
    linesSize (ln :: lines) = lineSize ln + linesSize lines := by
  simp [linesSize]

theorem length_expandLine {labels : Nat → Option Nat} {pos : Nat} {ln : Line} {ops : List HostOp}
    (h : expandLine labels pos ln = some ops) : ops.length = lineSize ln := by
  cases ln with
  | bnz x m l =>
    obtain ⟨p, -, rfl⟩ := Option.map_eq_some_iff.mp h
    rfl
  | load bytes => cases h; simp [lineSize]
  | _ => cases h; rfl

/-- The expansion of a line and of the lines after it, from the position the line's own size says. -/
theorem expandLines_cons {labels : Nat → Option Nat} {pos : Nat} {ln : Line} {rest : List Line} {ops : List HostOp} :
    expandLines labels pos (ln :: rest) = some ops ↔
      ∃ here more, expandLine labels pos ln = some here ∧
        expandLines labels (pos + lineSize ln) rest = some more ∧ here ++ more = ops := by
  rw [expandLines]
  cases expandLine labels pos ln <;> cases expandLines labels (pos + lineSize ln) rest <;> simp

theorem length_expandLines {labels : Nat → Option Nat} {pos : Nat} {lines : List Line} {ops : List HostOp}
    (h : expandLines labels pos lines = some ops) : ops.length = linesSize lines := by
  induction lines generalizing pos ops with
  | nil => cases h; rfl
  | cons ln rest ih =>
    obtain ⟨here, more, hhere, hmore, rfl⟩ := expandLines_cons.mp h
    rw [List.length_append, length_expandLine hhere, ih hmore, linesSize_cons]

/-- The expansion of two lists of lines begins with the expansion of the first. -/
theorem expandLines_append {labels : Nat → Option Nat} {pos : Nat} {xs ys : List Line} {ops : List HostOp}
    (h : expandLines labels pos (xs ++ ys) = some ops) :
    ∃ a b, expandLines labels pos xs = some a ∧ expandLines labels (pos + linesSize xs) ys = some b ∧
      ops = a ++ b := by
  induction xs generalizing pos ops with
  | nil => exact ⟨[], ops, rfl, h, rfl⟩
  | cons ln xs ih =>
    obtain ⟨here, more, hhere, hmore, rfl⟩ := expandLines_cons.mp h
    obtain ⟨a, b, ha, hb, rfl⟩ := ih hmore
    refine ⟨here ++ a, b, expandLines_cons.mpr ⟨here, a, hhere, ha, rfl⟩, ?_, (List.append_assoc _ _ _).symm⟩
    rwa [linesSize_cons, ← Nat.add_assoc]

theorem labelPos_cons_of_ne {ln : Line} {x : Nat} (h : ln ≠ .label x) (rest : List Line) (pos : Nat) :
    labelPos (ln :: rest) pos x = labelPos rest (pos + lineSize ln) x := by
  cases ln with
  | label l =>
    have hl : l ≠ x := fun e => h (by rw [e])
    rw [labelPos, if_neg hl, lineSize, Nat.add_zero]
  | _ => rfl

/-- A label that stands nowhere before its line names the position the lines before it lead to. -/
theorem labelPos_append_label {before : List Line} {l : Nat} (h : ∀ ln ∈ before, ln ≠ .label l)
    (after : List Line) (pos : Nat) : labelPos (before ++ .label l :: after) pos l = some (pos + linesSize before) := by
  induction before generalizing pos with
  | nil => simp [labelPos]
  | cons ln before ih =>
    obtain ⟨hln, hbefore⟩ := List.forall_mem_cons.mp h
    rw [List.cons_append, labelPos_cons_of_ne hln, ih hbefore, linesSize_cons, Nat.add_assoc]

/-- Settles O42: the label's position and the number of steps before it are both the size of the lines before it. -/
theorem labelsArePositions : Obligations.LabelsArePositions := by
  intro before after l ops hops hfirst
  obtain ⟨a, b, ha, -, rfl⟩ := expandLines_append hops
  refine ⟨a, b, rfl, ?_, ha⟩
  rw [labelPos_append_label hfirst, Nat.zero_add, length_expandLines ha]

end Sys2Proof.Machine

/-! # Proofs: the padder and the block splitter -/

namespace Sys2Proof.Machine

/-- R68: the padded length in numerals, for `omega`. -/
theorem paddedLen_eq (l : Nat) : paddedLen l = 64 * ((l + 8) / 64 + 1) := rfl

/-- Settles O25: every clause is arithmetic of 64 (floor((l + 8) / 64) + 1). -/
theorem paddedLengthIsLeast : Obligations.PaddedLengthIsLeast := by
  intro m
  rw [length_pad, paddedLen_eq]
  refine ⟨rfl, fun q _ _ => ?_, ?_, ?_, ?_, ?_⟩ <;> omega

/-- R69: a byte of the padded message is the rule's for each range that its position lies in. -/
theorem exists_pad_byte (m : List Byte) {i : Nat} (hi : i < paddedLen m.length) :
    ∃ b, (pad m)[i]? = some b ∧
      (i < m.length → m[i]? = some b) ∧
      (i = m.length → b = 0x80#8) ∧
      (m.length < i → i < paddedLen m.length - 8 → b = 0x00#8) ∧
      (paddedLen m.length - 8 ≤ i → b = byteBe64 (bitLength m.length) (i - (paddedLen m.length - 8))) := by
  have room := add_nine_le_paddedLen m.length
  rw [getElem?_pad m i hi]
  split_ifs with hmsg hmark hzero
  · exact ⟨m[i], List.getElem?_eq_getElem hmsg, fun _ => List.getElem?_eq_getElem hmsg, by omega, by omega, by omega⟩
  · exact ⟨_, rfl, by omega, fun _ => rfl, by omega, by omega⟩
  · exact ⟨_, rfl, by omega, by omega, fun _ _ => rfl, by omega⟩
  · exact ⟨_, rfl, by omega, by omega, by omega, fun _ => rfl⟩

/-- Settles O23: the length of `pad`, and its bytes by range. -/
theorem paddedMessageByteByByte : Obligations.PaddedMessageByteByByte :=
  fun m => ⟨length_pad m, fun _ hi => exists_pad_byte m hi⟩

/-- Settles O12: `PadByte(i)` is byte i of the padded message, and the memory holds that message's bytes. -/
theorem padByteIsThePaddedMessage : Obligations.PadByteIsThePaddedMessage := by
  intro c m i hm hl hb hi
  obtain ⟨b, hpad, hmsg, hmark, hzero, hlen⟩ := exists_pad_byte m hi
  have hbyte : padByte c i = .ok b := by
    rw [padByte_eq_pad hm hl hb hi, List.getD_eq_getElem?_getD, hpad, Option.getD_some]
  exact ⟨b, hbyte, hpad, fun h => (hm i h).trans (hmsg h), hmark, hzero, hb ▸ hlen⟩

/-- R69: the padded message ends in the eight bytes of the bit length. -/
theorem drop_pad (m : List Byte) : (pad m).drop ((pad m).length - 8) = bytesBe64 (bitLength m.length) := by
  have room := add_nine_le_paddedLen m.length
  exact List.drop_left' (by simp; omega)

/-- Settles O24: the last 8 bytes are those of the length field, which spell its value. -/
theorem lengthFieldHoldsTheBitLength : Obligations.LengthFieldHoldsTheBitLength := by
  intro m
  constructor
  · rw [drop_pad]
    exact (bigEndianValue_bytesBe64 _).trans (BitVec.toNat_ofNat ..)
  · have room := add_nine_le_paddedLen m.length
    rw [length_pad]
    omega

/-- R75: block j is the 64 bytes of the sequence from 64j on. -/
theorem toList_ofFn_getD (q : List Byte) {j : Nat} (h : j < q.length / 64) :
    (Vector.ofFn fun k : Fin 64 => q.getD (64 * j + k) 0#8).toList = (q.drop (64 * j)).take 64 := by
  refine List.ext_getElem (by simp; omega) fun k hk _ => ?_
  have inside : 64 * j + k < q.length := by simp at hk; omega
  simp [List.getElem?_eq_getElem inside]

/-- R75: the first n blocks in order are the first 64n bytes. -/
theorem flatMap_take_blocks (q : List Byte) (n : Nat) (h : n ≤ q.length / 64) :
    ((blocks q).take n).flatMap Vector.toList = q.take (64 * n) := by
  induction n with
  | zero => rfl
  | succ n ih =>
    rw [List.take_add_one, getElem?_blocks q n h, List.flatMap_append, ih (by omega), Option.toList_some,
      List.flatMap_singleton, toList_ofFn_getD q h, Nat.mul_succ, List.take_add]

/-- R75: byte k of block j is byte 64j + k of the sequence. -/
theorem getElem?_blocks_byte (q : List Byte) {j k : Nat} (hk : k < 64) (h : j < q.length / 64) :
    ((blocks q)[j]?.map fun b => b[k]) = q[64 * j + k]? := by
  have inside : 64 * j + k < q.length := by omega
  simp [getElem?_blocks q j h, List.getElem?_eq_getElem inside]

/-- R75, R77: the splitter answers the blocks exactly when the length is a positive multiple of 64. -/
theorem split_eq_some_iff {q : List Byte} {bs : List Block} :
    split q = some bs ↔ (q.length % 64 = 0 ∧ 0 < q.length) ∧ blocks q = bs := by
  simp [split]

theorem split_eq_none_iff {q : List Byte} : split q = none ↔ ¬ (q.length % 64 = 0 ∧ 0 < q.length) := by
  simp [split]

/-- Settles O26: the first n blocks are the first 64n bytes, by induction on n; for all of them, that is the sequence. -/
theorem splitterCoversTheMessage : Obligations.SplitterCoversTheMessage := by
  refine ⟨fun q bs hs => ?_, fun _ => split_eq_none_iff, fun m => ?_⟩
  · obtain ⟨⟨hmul, -⟩, rfl⟩ := split_eq_some_iff.mp hs
    refine ⟨length_blocks q, ?_, fun j k hk hj => getElem?_blocks_byte q hk (length_blocks q ▸ hj)⟩
    calc (blocks q).flatMap Vector.toList
        = ((blocks q).take (q.length / 64)).flatMap Vector.toList := by rw [List.take_of_length_le (by simp)]
      _ = q.take (64 * (q.length / 64)) := flatMap_take_blocks q _ (Nat.le_refl _)
      _ = q := List.take_of_length_le (by omega)
  · rw [split_eq_some_iff, length_pad, paddedLen_eq]
    exact ⟨by omega, rfl⟩

end Sys2Proof.Machine

/-! # Proofs: the mixing functions and the schedule -/

namespace Sys2Proof.Machine

/-- R80 (41_schedule.md): for the amounts the core uses, ROTR is the rotation of bit vectors. -/
theorem rotr_eq_rotateRight (x : Word) {n : Nat} (hn : n < 32) : rotr x n = x.rotateRight n :=
  (BitVec.rotateRight_eq_rotateRightAux_of_lt hn).symm

/-- R80 (41_schedule.md): the bits that wrap around are those from `32 - n` on. -/
theorem getLsbD_rotr (x : Word) {n i : Nat} (hn : n < 32) (hi : i < 32) :
    (rotr x n).getLsbD i = x.getLsbD ((i + n) % 32) := by
  rw [rotr_eq_rotateRight x hn, BitVec.getLsbD_rotateRight, Nat.mod_eq_of_lt hn]
  by_cases hlow : i < 32 - n
  · have hstay : (i + n) % 32 = n + i := by omega
    rw [hstay, decide_eq_true hlow, cond_true]
  · have hwrap : (i + n) % 32 = i - (32 - n) := by omega
    rw [hwrap, decide_eq_false hlow, cond_false, decide_eq_true hi, Bool.true_and]

/-- R81 (41_schedule.md): bit i of SHR(x, n) is bit i + n of x where x has one, else 0. -/
theorem getLsbD_shr (x : Word) (n i : Nat) :
    (shr x n).getLsbD i = (decide (i < 32 - n) && x.getLsbD (i + n)) := by
  rw [shr, BitVec.getLsbD_ushiftRight, Nat.add_comm n i]
  by_cases hi : i < 32 - n
  · rw [decide_eq_true hi, Bool.true_and]
  · rw [decide_eq_false hi, Bool.false_and, BitVec.getLsbD_of_ge x (i + n) (by omega)]

/-- Settles O20: ROTR is the rotation of bit vectors, and a logical shift right divides. -/
theorem rotateAndShiftBits : Obligations.RotateAndShiftBits :=
  fun x n hn => ⟨fun _ _ hi => getLsbD_rotr x hn hi,
    (BitVec.toNat_ushiftRight x n).trans (Nat.shiftRight_eq_div_pow x.toNat n)⟩

/-- R89 (42_compression.md): e's bit chooses between f's and g's. -/
theorem getLsbD_ch (e f g : Word) {i : Nat} (hi : i < 32) :
    (ch e f g).getLsbD i = if e.getLsbD i then f.getLsbD i else g.getLsbD i := by
  simp only [ch, BitVec.getLsbD_xor, BitVec.getLsbD_and, BitVec.getLsbD_not, hi]
  cases e.getLsbD i <;> simp

/-- R90 (42_compression.md): the exclusive or of the three conjunctions is the majority. -/
theorem getLsbD_maj (a b c : Word) (i : Nat) :
    (maj a b c).getLsbD i =
      decide (2 ≤ (a.getLsbD i).toNat + (b.getLsbD i).toNat + (c.getLsbD i).toNat) := by
  simp only [maj, BitVec.getLsbD_xor, BitVec.getLsbD_and]
  generalize a.getLsbD i = p, b.getLsbD i = q, c.getLsbD i = r
  revert p q r
  decide

/-- Settles O21: the exclusive or of words is bit by bit, and each rotation, each shift, Ch and Maj are known bit by
bit. -/
theorem mixingFunctionsBitByBit : Obligations.MixingFunctionsBitByBit := by
  intro x y z i hi
  have rot (n : Nat) (hn : n < 32) := getLsbD_rotr x hn hi
  refine ⟨?_, ?_, ?_, ?_, getLsbD_ch x y z hi, getLsbD_maj x y z i⟩
  · rw [sigma0, BitVec.getLsbD_xor, BitVec.getLsbD_xor, rot 7 (by decide), rot 18 (by decide), getLsbD_shr]
  · rw [sigma1, BitVec.getLsbD_xor, BitVec.getLsbD_xor, rot 17 (by decide), rot 19 (by decide), getLsbD_shr]
  · rw [bigSigma0, BitVec.getLsbD_xor, BitVec.getLsbD_xor, rot 2 (by decide), rot 13 (by decide), rot 22 (by decide)]
  · rw [bigSigma1, BitVec.getLsbD_xor, BitVec.getLsbD_xor, rot 6 (by decide), rot 11 (by decide), rot 25 (by decide)]

/-- R84 (41_schedule.md): entries 0 to 15 of a block's schedule are the block's words. -/
theorem getElem_expand_blockWord (b : Block) {t : Nat} (h : t < 64) (ht : t < 16) :
    (expand b)[t] = be32 b[4 * t] b[4 * t + 1] b[4 * t + 2] b[4 * t + 3] := by
  have hlen : t < (blockWords b).length := by rwa [length_blockWords]
  rw [← getElem_loadWords_eq_expand b (Vector.replicate 64 0#32) h ht, getElem_loadWords _ _ _ h, if_pos ht,
    List.getD_eq_getElem _ _ hlen, getElem_blockWords b t ht]

/-- Settles O27: the first sixteen entries are the block's words, and the finished schedule meets the recurrence. -/
theorem scheduleSatisfiesTheRecurrence : Obligations.ScheduleSatisfiesTheRecurrence :=
  fun b t h => ⟨fun ht => getElem_expand_blockWord b h ht, fun h16 => getElem_expand_recurrence b t h16 h⟩

end Sys2Proof.Machine

/-! # Proofs: the compression and the digest -/

namespace Sys2Proof.Machine

/-- R100 (42_compression.md): S_0 is H0. -/
theorem stateAfter_zero (m : List Byte) : stateAfter m 0 = Rom.H0 := by
  rw [stateAfter, List.take_zero]
  rfl

/-- R100 (42_compression.md): from S_j the remaining blocks lead to the digest. -/
theorem foldBlocks_stateAfter_drop (m : List Byte) (j : Nat) :
    foldBlocks (stateAfter m j) ((blocks (pad m)).drop j) = sha256 m := by
  rw [stateAfter, ← foldBlocks_append, List.take_append_drop, sha256]

/-- Settles O28: a fold over the first j blocks, split at its last block or at the blocks that remain. -/
theorem digestFoldsOverTheBlocks : Obligations.DigestFoldsOverTheBlocks :=
  fun m => ⟨stateAfter_zero m, fun _ _ hb => stateAfter_succ hb, stateAfter_all m, foldBlocks_stateAfter_drop m⟩

/-- R97 (42_compression.md): one more round is R96's update with `K[n]` and `W[n]`. -/
theorem rounds_succ_of_lt (W : Vector Word 64) (v : Vars) {n : Nat} (h : n < 64) :
    rounds W v (n + 1) = roundStep Rom.K[n] W[n] (rounds W v n) := by
  rw [rounds, roundAt_of_lt W _ h]

/-- Settles O29: the 65 values are those before the first round and after each of the 64. -/
theorem compressionIsSixtyFourRounds : Obligations.CompressionIsSixtyFourRounds := by
  intro H W
  refine ⟨fun n => rounds W (initVars H) n, rfl, fun t => ?_, rfl⟩
  exact ⟨_, _, rfl, rfl, rounds_succ_of_lt W (initVars H) t.isLt⟩

end Sys2Proof.Machine

/-! # Proofs: the dispatch of a CMD write, and NOP -/

namespace Sys2Proof.Machine

/-- R103 (43_driver_commands.md): a CMD write of any word is what that word performs, behind the gate before every
command; only the core changes. -/
theorem cmdWrite_eq_gate (v : Word) : ∃ perform : Params → CoreState → CoreState,
    ∀ s, cmdWrite v s = .next { s with core := commandGate (perform s.params) s.core } := by
  unfold cmdWrite
  cases decode v with
  | command i =>
    cases i with
    | nop => exact ⟨fun _ => clearError, fun _ => rfl⟩
    | hash => exact ⟨hashWhenIdle, fun _ => rfl⟩
  | illegal _ => exact ⟨fun _ => reject ErrCode.illegalCmd, fun _ => rfl⟩

/-- R124 (60_exceptions.md): an illegal word written to an idle core is rejected with ILLEGAL_CMD. -/
theorem cmdWrite_illegal_idle {v : Word} {s : State} (hv : ¬ legalWord v) (hp : s.core.phase = .idle) :
    cmdWrite v s = .next { s with core := reject ErrCode.illegalCmd s.core } := by
  obtain ⟨why, hd⟩ := decode_illegal_of_not_legalWord hv
  rw [cmdWrite, hd, illegalCommand, commandGate_idle _ hp]

/-- Settles O5: the gate decides at a faulted and at a busy core, at an idle one the word and then the length. -/
theorem cmdWriteFollowsTheDispatch : Obligations.CmdWriteFollowsTheDispatch := by
  intro v s
  obtain ⟨perform, hgate⟩ := cmdWrite_eq_gate v
  refine ⟨busWrite_of_access (access_cmd _) v, fun hf => ?_, fun hb => ?_,
    fun hp => ⟨fun hnop hhash => cmdWrite_illegal_idle (not_or.mpr ⟨hnop, hhash⟩) hp, ?_, ?_, ?_⟩⟩
  · rw [hgate, commandGate_faulted _ hf]
  · rw [hgate, commandGate_busy _ hb]
    rfl
  · rintro rfl
    exact cmdWrite_command (decode_encode .nop) s
  · rintro rfl hlong
    exact (cmdWrite_command (decode_encode .hash) s).trans ((hashIsAcceptedOrRejected s).1 hp hlong)
  · rintro rfl -
    exact cmdWrite_command (decode_encode .hash) s

/-- R59 (30_encoding.md): STATUS 0x00000016 is that of an idle core with DONE 1. -/
theorem idle_done_of_status {c : CoreState} (h : statusWord c = 0x00000016#32) : c.phase = .idle ∧ c.done = true := by
  have bit (i : Nat) := h ▸ getLsbD_statusWord c i
  have busy : c.phase.busy = false := (bit 0).symm
  have done : c.done = true := (bit 1).symm
  have fault : c.phase.fault = false := (bit 3).symm
  refine ⟨(Phase.busy_eq_false.mp busy).resolve_right fun hp => ?_, done⟩
  rw [hp] at fault
  cases fault

/-- R59 (30_encoding.md): STATUS of an idle core with DONE 1 and no error. -/
theorem statusWord_clearError {c : CoreState} (hp : c.phase = .idle) (hd : c.done = true) :
    statusWord (clearError c) = 0x00000002#32 := by
  simp [statusWord, errCodeShown, errShown, hp, hd, Phase.fault, Phase.busy, ErrCode.noError, flagWord]

/-- R105 (43_driver_commands.md). -/
theorem exec_nop_idle {s : State} (hp : s.core.phase = .idle) :
    exec .nop s = .next { s with core := clearError s.core } := by
  rw [exec, execNop, commandGate_idle _ hp]

/-- Settles O6: the gate decides the three cases, and STATUS 0x00000016 is that of an idle core. -/
theorem nopClearsTheError : Obligations.NopClearsTheError := by
  refine ⟨decode_encode .nop, fun s => ⟨exec_nop_idle, fun hb => ?_, fun hf => ?_, fun hstatus => ?_⟩⟩
  · rw [exec, execNop, commandGate_busy _ hb]
    rfl
  · rw [exec, execNop, commandGate_faulted _ hf]
  · obtain ⟨hp, hd⟩ := idle_done_of_status hstatus
    exact ⟨_, exec_nop_idle hp, statusWord_clearError hp hd⟩

end Sys2Proof.Machine

/-! # Proofs: a HASH in progress under every interleaving -/

namespace Sys2Proof.Machine

section
variable {m : List Byte} {c c' : CoreState}

theorem HashInProgress.busy (h : HashInProgress m c) : c.phase.busy = true := by
  obtain ⟨b, -, hprog⟩ := h.block
  cases hp : c.phase with
  | idle | faulted => simp [blockProgress, hp] at hprog
  | _ => rfl

/-- R125 (60_exceptions.md): a rejected command leaves the HASH in progress as it is. -/
theorem HashInProgress.reject (h : HashInProgress m c) (code : BitVec 4) : HashInProgress m (reject code c) :=
  { h with }

/-- R54 (20_memory.md), R125 (60_exceptions.md): no host write moves a HASH in progress. -/
theorem HashInProgress.of_write {p : Params} (h : HashInProgress m c) (e : WriteEffect p c c') :
    HashInProgress m c' ∧ remaining c' = remaining c := by
  rcases e.of_busy h.busy with rfl | rfl
  · exact ⟨h, rfl⟩
  · exact ⟨h.reject _, rfl⟩

theorem HashAdvance.inProgress_or_done (a : HashAdvance m c c') : HashInProgress m c' ∨ HashDone m c' := by
  cases a with
  | further p _ => exact .inl p
  | finished d _ _ => exact .inr d

theorem remaining_idle (hp : c.phase = .idle) : remaining c = 0 := by
  simp [remaining, hp]

theorem HashAdvance.remaining_succ (a : HashAdvance m c c') : remaining c' + 1 = remaining c := by
  cases a with
  | further _ r => exact r
  | finished d _ r =>
    obtain ⟨hidle, -⟩ := d
    rw [remaining_idle hidle, r]

/-- While `m` is being hashed, a next state of the core is the HASH's advance. -/
theorem HashInProgress.advance_of_coreStep (h : HashInProgress m c) (hc : coreStep c = .next c') :
    HashAdvance m c c' := by
  obtain ⟨d, hd, adv⟩ := h.coreStep_advances
  rw [hc, Host.Outcome.next.injEq] at hd
  exact hd ▸ adv

end

/-- Settles O54: a host write does not move the HASH, and the core's turn advances it or completes it. -/
theorem hashProgressIsKept : Obligations.HashProgressIsKept := by
  intro m s t h hn hs
  rcases step_effect_of_ne_reset hs hn with ⟨-, e⟩ | ⟨-, hc⟩
  · exact .inl (h.of_write e).1
  · exact (h.advance_of_coreStep hc).inProgress_or_done

/-- The core's turn is its micro-step. -/
theorem step_of_coreStep {s : State} {c : CoreState} (hm : nextMove s = .core) (hc : coreStep s.core = .next c) :
    step s = .next { takeTurn s with core := c } := by
  rw [step, hm, runMove, coreMove, takeTurn_core, hc]

/-- Settles O55: the advance of the core's turn is by one micro-step, and a host write leaves the count. -/
theorem everyMicroStepMakesProgress : Obligations.EveryMicroStepMakesProgress := by
  intro m s h
  refine ⟨fun hm => ?_, fun hm t hs => ?_⟩
  · obtain ⟨c, hc, adv⟩ := h.coreStep_advances
    exact ⟨_, step_of_coreStep hm hc, adv.remaining_succ⟩
  · rcases step_effect_of_ne_reset hs (by rw [hm]; decide) with ⟨-, e⟩ | ⟨hcore, -⟩
    · exact (h.of_write e).2
    · rw [hm] at hcore
      cases hcore

/-- Settles O53: the accepted HASH is at its first block, with all the micro-steps of its blocks to go. -/
theorem acceptanceStartsTheHash : Obligations.AcceptanceStartsTheHash := by
  intro s m hp hu hl hfit hm
  refine ⟨_, exec_hash_accepted hp (hl ▸ hfit), acceptHash_inProgress hu hl hm, ?_⟩
  rw [remaining_acceptHash, hl]

/-- The state after an accepted HASH of `m` is one in which `m` is being hashed. -/
theorem inProgress_of_exec_hash {m : List Byte} {s t : State} (hp : s.core.phase = .idle)
    (hu : s.core.uninit = none) (hl : s.core.msgLen.toNat = m.length) (hfit : m.length ≤ s.params.msgMaxBytes)
    (hm : s.core.msg.holds m) (ht : exec .hash s = .next t) : HashInProgress m t.core := by
  obtain ⟨t', ht', h, -⟩ := acceptanceStartsTheHash s m hp hu hl hfit hm
  rw [ht, Host.Outcome.next.injEq] at ht'
  exact ht' ▸ h

/-- Settles O56: the run of the core's turns from the acceptance, which itself clears ERR and ERRCODE. -/
theorem hashRunsToItsDigest : Obligations.HashRunsToItsDigest := by
  intro s m rest hp hu hl hfit hm
  have started : HashInProgress m (acceptHash s.core) := acceptHash_inProgress hu hl hm
  obtain ⟨c, hrun, hdone, hmsg, hlen, herr, hcode⟩ := HashInProgress.run_coreTurns rest
    (s := { s with core := acceptHash s.core }) started (n := 115 * paddedBlocks m.length)
    (by rw [remaining_acceptHash, hl])
  exact ⟨_, _, exec_hash_accepted hp (hl ▸ hfit), hrun, hdone, rfl, rfl, rfl, hmsg, hlen, herr, hcode⟩

/-- R114 (43_driver_commands.md): a run without reset from a HASH of `m` in progress that is idle at its end for the
first time has completed the HASH. -/
theorem HashInProgress.done_of_first_idle {m : List Byte} : ∀ {sched : List Move} {s u : State},
    HashInProgress m s.core → s.sched = sched → (∀ mv ∈ sched, mv ≠ .reset) →
    Sys2Proof.core.run sched.length s = .next u → u.core.phase = .idle →
    (∀ k v, k < sched.length → Sys2Proof.core.run k s = .next v → v.core.phase.busy = true) →
    HashDone m u.core
  | [], s, u, h, _, _, hrun, hidle, _ => by
    cases hrun
    exact absurd hidle (Phase.ne_idle_of_busy h.busy)
  | mv :: sched, s, u, h, hsched, hreset, hrun, hidle, hbusy => by
    obtain ⟨hmv, hreset'⟩ := List.forall_mem_cons.mp hreset
    obtain ⟨t, hs, hrun'⟩ := run_succ_next hrun
    have hbusy' : ∀ k v, k < sched.length → Sys2Proof.core.run k t = .next v → v.core.phase.busy = true :=
      fun k v hk hv => hbusy (k + 1) v (Nat.succ_lt_succ hk) (by rw [run_succ k hs, hv])
    rcases hashProgressIsKept m s t h (by rwa [nextMove_cons s mv sched hsched]) hs with h' | hdone
    · exact h'.done_of_first_idle (step_sched hsched hs) hreset' hrun' hidle hbusy'
    · cases sched with
      | nil => cases hrun'; exact hdone
      | cons _ _ => exact absurd hdone.1 (Phase.ne_idle_of_busy (hbusy' 0 t (Nat.succ_pos _) rfl))

/-- Settles O57: the acceptance starts the HASH, and the run's first idle state is its completion. -/
theorem everyInterleavingGivesTheDigest : Obligations.EveryInterleavingGivesTheDigest := by
  intro m s t u sched hp hu hl hfit hm ht hreset hrun hidle hbusy
  have started : HashInProgress m t.core := inProgress_of_exec_hash hp hu hl hfit hm ht
  exact HashInProgress.done_of_first_idle (s := { t with sched := sched }) started rfl hreset hrun hidle hbusy

/-- R119 (43_driver_commands.md): the digest of the empty message. -/
theorem sha256_nil : sha256 [] = #v[0xe3b0c442#32, 0x98fc1c14#32, 0x9afbf4c8#32, 0x996fb924#32, 0x27ae41e4#32,
    0x649b934c#32, 0xa495991b#32, 0x7852b855#32] := by decide +kernel

/-- Settles O59: any memory holds the empty message, whose HASH runs to the known digest. -/
theorem emptyMessageDigest : Obligations.EmptyMessageDigest := by
  intro s hp hu hl
  have hzero : s.core.msgLen.toNat = 0 := by rw [hl]; rfl
  have hfit : s.core.msgLen.toNat ≤ s.params.msgMaxBytes := hzero ▸ Nat.zero_le _
  obtain ⟨t, ht, runs⟩ := hash_runs_to_digest (m := []) hp hu hzero hfit (fun _ hi => absurd hi (Nat.not_lt_zero _))
  have hnblk : t.core.nblk = 1 := by
    rw [exec_hash_accepted hp hfit] at ht
    cases ht
    rw [acceptHash_nblk, hzero]
    rfl
  refine ⟨t, 115 * paddedBlocks 0, ht, hnblk, fun n hn => ?_⟩
  obtain ⟨u, hu, hidle, hdone, hH⟩ := runs n hn
  exact ⟨u, hu, hidle, hdone, hH.trans sha256_nil⟩

/-! ### Weak fairness, R113 (43_driver_commands.md) -/

/-- An outcome with the turns to come replaced. -/
def withSched (sched : List Move) : Host.Outcome State Fault Refusal → Host.Outcome State Fault Refusal
  | .next s => .next { s with sched := sched }
  | .fault r => .fault r
  | .refused r => .refused r

theorem writeTarget_withSched (r : Target) (v : Word) (s : State) (sched : List Move) :
    writeTarget r v { s with sched := sched } = withSched sched (writeTarget r v s) := by
  cases r with
  | cmd =>
    obtain ⟨f, hf⟩ := cmdWrite_eq_gate v
    rw [writeTarget, hf, writeTarget, hf]
    rfl
  | _ => rfl

theorem busWrite_withSched (off : Nat) (v : Word) (s : State) (sched : List Move) :
    busWrite off v { s with sched := sched } = withSched sched (busWrite off v s) := by
  unfold busWrite
  cases access s.params off with
  | ok r => exact writeTarget_withSched r v { s with host := s.host.advance.wrote off v } sched
  | error e => rfl

theorem busRead_withSched (off x : Nat) (s : State) (sched : List Move) :
    busRead off x { s with sched := sched } = withSched sched (busRead off x s) := by
  unfold busRead
  cases access s.params off with
  | ok r => cases r <;> rfl
  | error e => rfl

theorem hostOp_withSched (op : HostOp) (s : State) (sched : List Move) :
    hostOp op { s with sched := sched } = withSched sched (hostOp op s) := by
  cases op with
  | wr off v => exact busWrite_withSched off v s sched
  | rd off x => exact busRead_withSched off x s sched
  | bnz x m target => rfl
  | memWrite addr width v =>
    simp only [hostOp]
    cases offsetOf s.params addr width with
    | ok off => exact busWrite_withSched off v s sched
    | error e => rfl
  | memRead addr width x =>
    simp only [hostOp]
    cases offsetOf s.params addr width with
    | ok off => exact busRead_withSched off x s sched
    | error e => rfl

/-- R49 (20_memory.md): a turn, once it is taken, does not depend on the turns to come, and leaves them. -/
theorem runMove_withSched (mv : Move) (s : State) (sched : List Move) :
    runMove mv { s with sched := sched } = withSched sched (runMove mv s) := by
  cases mv with
  | host =>
    unfold runMove hostMove
    cases s.host.prog[s.host.pc]? with
    | some op => exact hostOp_withSched op s sched
    | none => rfl
  | core =>
    unfold runMove coreMove
    cases coreStep s.core <;> rfl
  | reset => rfl

/-- A run of all the turns of a schedule goes on with the turns that follow them. -/
theorem run_append {k : Nat} {more : List Move} : ∀ {turns : List Move} {s u : State}, s.sched = turns →
    Sys2Proof.core.run turns.length s = .next u →
    Sys2Proof.core.run (turns.length + k) { s with sched := turns ++ more } =
      Sys2Proof.core.run k { u with sched := more }
  | [], s, u, _, h => by
    cases h
    rw [List.length_nil, Nat.zero_add, List.nil_append]
  | mv :: turns, s, u, hsched, h => by
    obtain ⟨t, ht, hrun⟩ := run_succ_next h
    have first : step { s with sched := mv :: (turns ++ more) } = .next { t with sched := turns ++ more } := by
      rw [step_cons s mv turns hsched] at ht
      rw [step_cons _ mv (turns ++ more) rfl]
      exact (runMove_withSched mv { s with sched := turns } (turns ++ more)).trans (by rw [ht, withSched])
    rw [List.length_cons, Nat.add_right_comm, List.cons_append, run_succ _ first]
    exact run_append (step_sched hsched ht) hrun

/-- The run of one more turn of an interleaving is a step of the agent that has that turn. -/
theorem runTurns_succ {order : Nat → Move} {n : Nat} {s u v : State} (h : runTurns order n s = .next u)
    (hs : step { u with sched := [order n] } = .next v) : runTurns order (n + 1) s = .next v := by
  have hlen : ((List.range n).map order).length = n := by simp
  have split := run_append (k := 1) (more := [order n]) (s := { s with sched := (List.range n).map order }) (u := u)
    rfl (by rwa [hlen])
  rw [hlen] at split
  rw [runTurns, List.range_succ, List.map_append, List.map_singleton, split, run_succ 0 hs]
  rfl

/-- R42 (20_memory.md): every access of the host's program is inside the contract. -/
def State.HostInContract (s : State) : Prop := ∀ op ∈ s.host.prog, op.inContract s.params

theorem hostOp_keeps_prog {op : HostOp} {s t : State} (h : hostOp op s = .next t) : t.host.prog = s.host.prog := by
  have write : ∀ {off v}, busWrite off v s = .next t → t.host.prog = s.host.prog := fun h => by
    obtain ⟨c, rfl, -⟩ := busWrite_next h
    rfl
  have read : ∀ {off x}, busRead off x s = .next t → t.host.prog = s.host.prog := fun h => by
    obtain ⟨r, -, rfl⟩ := busRead_next h
    rfl
  cases op with
  | wr off v => exact write h
  | rd off x => exact read h
  | bnz x m target =>
    rw [hostOp_bnz] at h
    cases h
    rfl
  | memWrite addr width v =>
    rcases offsetOf_cases s.params addr width with ⟨-, -, ho⟩ | ⟨-, e, he⟩
    · rw [hostOp, ho] at h
      exact write h
    · rw [hostOp, he] at h
      cases h
  | memRead addr width x =>
    rcases offsetOf_cases s.params addr width with ⟨-, -, ho⟩ | ⟨-, e, he⟩
    · rw [hostOp, ho] at h
      exact read h
    · rw [hostOp, he] at h
      cases h

/-- No step changes the host's program. -/
theorem step_keeps_prog {s t : State} (h : step s = .next t) : t.host.prog = s.host.prog := by
  unfold step at h
  cases hm : nextMove s with
  | host =>
    simp only [hm, runMove, hostMove] at h
    split at h
    · rw [hostOp_keeps_prog h, takeTurn_host]
    · cases h
      rw [takeTurn_host]
  | core =>
    rw [hm, runMove] at h
    obtain ⟨c, -, rfl⟩ := coreMove_next h
    rw [takeTurn_host]
  | reset =>
    rw [hm, runMove] at h
    cases h
    rw [platformReset_host, takeTurn_host]

theorem State.HostInContract.step {s t : State} (h : s.HostInContract) (hs : step s = .next t) :
    t.HostInContract := by
  rw [State.HostInContract, step_keeps_prog hs, (step_effect hs).1]
  exact h

/-- R42 (20_memory.md): a host inside the contract is never refused. -/
theorem State.HostInContract.host_step_next {s : State} (h : s.HostInContract) (hm : nextMove s = .host) :
    ∃ t, Machine.step s = .next t := by
  cases hop : s.host.prog[s.host.pc]? with
  | some op =>
    obtain ⟨t, ht⟩ := (accessesOutsideTheContractAreRefused op (takeTurn s)).1
      (by rw [takeTurn_params]; exact h op (List.mem_of_getElem? hop))
    exact ⟨t, (step_of_hostLine hm hop).trans ht⟩
  | none => exact ⟨takeTurn s, by rw [Machine.step, hm, runMove, hostMove, takeTurn_host, hop]⟩

/-- While `m` is being hashed and the host keeps to the contract, a turn that is no reset answers a next state, in
which that is still so or the HASH is complete. -/
theorem HashInProgress.turn {m : List Byte} {s : State} (h : HashInProgress m s.core) (hc : s.HostInContract)
    (hn : nextMove s ≠ .reset) :
    ∃ t, step s = .next t ∧ t.HostInContract ∧ (HashInProgress m t.core ∨ HashDone m t.core) := by
  obtain ⟨t, ht⟩ : ∃ t, step s = .next t := by
    cases hm : nextMove s with
    | host => exact hc.host_step_next hm
    | core =>
      obtain ⟨t, ht, -⟩ := (everyMicroStepMakesProgress m s h).1 hm
      exact ⟨t, ht⟩
    | reset => exact absurd hm hn
  exact ⟨t, ht, hc.step ht, hashProgressIsKept m s t h hn ht⟩

/-- After n turns of the interleaving `order` the HASH of `m` is complete. -/
def CompleteAfter (m : List Byte) (order : Nat → Move) (s : State) (n : Nat) : Prop :=
  ∃ u, runTurns order n s = .next u ∧ HashDone m u.core

section
variable {m : List Byte} {order : Nat → Move} {s : State}

/-- As long as no turn has completed the HASH, it is in progress. -/
theorem HashInProgress.runTurns_in_progress (h : HashInProgress m s.core) (hc : s.HostInContract)
    (hr : ∀ k, order k ≠ .reset) : ∀ n, (∀ k, k ≤ n → ¬ CompleteAfter m order s k) →
    ∃ u, runTurns order n s = .next u ∧ HashInProgress m u.core ∧ u.HostInContract
  | 0, _ => ⟨_, rfl, h, hc⟩
  | n + 1, hnot => by
    obtain ⟨u, hu, hp, huc⟩ := h.runTurns_in_progress hc hr n fun k hk => hnot k (Nat.le_succ_of_le hk)
    obtain ⟨v, hv, hvc, hadv⟩ := HashInProgress.turn (s := { u with sched := [order n] }) hp huc (hr n)
    have hrun := runTurns_succ hu hv
    rcases hadv with hp' | hdone
    · exact ⟨v, hrun, hp', hvc⟩
    · exact absurd ⟨v, hrun, hdone⟩ (hnot (n + 1) (Nat.le_refl _))

/-- R113 (43_driver_commands.md): under weak fairness some turn completes the HASH. Else it would be in progress, so
enabled, at every turn; then the core would get a turn once the number of micro-steps left is the least it ever is, and
lower it. -/
theorem HashInProgress.completes (h : HashInProgress m s.core) (hc : s.HostInContract)
    (hr : ∀ k, order k ≠ .reset) (fair : WeaklyFair order s) : ∃ n, CompleteAfter m order s n := by
  by_contra hnever
  choose state hrun hprog hcontract using fun n =>
    h.runTurns_in_progress hc hr n fun k _ hk => hnever ⟨k, hk⟩
  have next (n : Nat) : step { state n with sched := [order n] } = .next (state (n + 1)) := by
    obtain ⟨v, hv, -⟩ := HashInProgress.turn (s := { state n with sched := [order n] }) (hprog n) (hcontract n) (hr n)
    have hv' := runTurns_succ (hrun n) hv
    rw [hrun (n + 1)] at hv'
    rw [hv, hv']
  have progress (n : Nat) := everyMicroStepMakesProgress m { state n with sched := [order n] } (hprog n)
  have lower (n : Nat) (hn : order n = .core) : remaining (state (n + 1)).core + 1 = remaining (state n).core := by
    obtain ⟨t, ht, hleft⟩ := (progress n).1 hn
    rw [next n] at ht
    cases ht
    exact hleft
  have antitone : Antitone fun n => remaining (state n).core := antitone_nat_of_succ_le fun n => by
    cases hn : order n with
    | host => exact ((progress n).2 hn _ (next n)).le
    | core => have := lower n hn; omega
    | reset => exact absurd hn (hr n)
  have enabled (k : Nat) : ∃ u, runTurns order k s = .next u ∧ u.core.enabled :=
    ⟨state k, hrun k, (hprog k).busy, (hprog k).noRecord⟩
  obtain ⟨k, hk, hcore⟩ := fair (Function.argmin fun n => remaining (state n).core) fun k _ => enabled k
  have least := Function.argmin_le (fun n => remaining (state n).core) (k + 1)
  have before := antitone hk
  have lowered := lower k hcore
  dsimp only at least before
  omega

end

/-- Settles O60: the first turn that completes the HASH; before it the HASH is in progress, so the core is busy. -/
theorem hashTerminatesUnderWeakFairness : Obligations.HashTerminatesUnderWeakFairness := by
  classical
  intro m s t order hp hu hl hfit hm ht hcontract hr fair
  have started : HashInProgress m t.core := inProgress_of_exec_hash hp hu hl hfit hm ht
  have hc : t.HostInContract := by
    obtain ⟨t', ht', hhost, hparams, -⟩ := commandsKeepTheRest .hash s
    rw [ht] at ht'
    cases ht'
    rw [State.HostInContract, hhost, hparams]
    exact hcontract
  have completes := started.completes hc hr fair
  obtain ⟨u, hrun, hdone⟩ := Nat.find_spec completes
  refine ⟨Nat.find completes, u, hrun, hdone, fun k hk => ?_⟩
  obtain ⟨v, hv, hprog, -⟩ := started.runTurns_in_progress hc hr k fun i hi =>
    Nat.find_min completes (Nat.lt_of_le_of_lt hi hk)
  exact ⟨v, hv, hprog.busy⟩

end Sys2Proof.Machine

/-! # Proofs: the micro-steps one by one -/

namespace Sys2Proof.Machine

section
variable {c : CoreState} (hu : c.uninit = none)
include hu

theorem coreStep_not_busy (hp : c.phase.busy = false) : coreStep c = .next c := by
  rcases Phase.busy_eq_false.mp hp with hp | hp <;> simp [coreStep, hu, hp]

theorem coreStep_split (hp : c.phase = .split) : coreStep c = .next (microSplit c) := by
  simp [coreStep, hu, hp]

theorem coreStep_expand (hp : c.phase = .expand) (ht : 16 ≤ c.t ∧ c.t < 64) :
    coreStep c = .next (microExpand c) := by
  simp [coreStep, hu, hp, ht]

theorem coreStep_vars (hp : c.phase = .vars) : coreStep c = .next (microVars c) := by
  simp [coreStep, hu, hp]

theorem coreStep_round (hp : c.phase = .round) (ht : c.t < 64) : coreStep c = .next (microRound c) := by
  simp [coreStep, hu, hp, ht]

theorem coreStep_accum (hp : c.phase = .accum) : coreStep c = .next (microAccum c) := by
  simp [coreStep, hu, hp]

end

/-- R85 (41_schedule.md): a step of the expansion writes entry t by the recurrence. -/
theorem scheduleStep_eq_set (W : Vector Word 64) {t : Nat} (h16 : 16 ≤ t) (h : t < 64) :
    scheduleStep W t = W.set t (sigma1 W[t - 2] + W[t - 7] + sigma0 W[t - 15] + W[t - 16]) := by
  rw [scheduleStep, dif_pos ⟨h16, h⟩, scheduleWord]

/-- Settles O13: EXPAND's step of the schedule writes entry t. -/
theorem expandComputesOneWord : Obligations.ExpandComputesOneWord := by
  intro c hu hp h16 h64
  rw [coreStep_expand hu hp ⟨h16, h64⟩, microExpand, scheduleStep_eq_set c.W h16 h64]

/-- Settles O14. -/
theorem varsLoadsTheHashState : Obligations.VarsLoadsTheHashState :=
  fun _ hu hp => coreStep_vars hu hp

/-- Settles O15: T1 and T2 are the round function's two temporaries. -/
theorem roundPerformsOneRound : Obligations.RoundPerformsOneRound := by
  rintro c hu hp h64 _ _ rfl rfl
  rw [coreStep_round hu hp h64, microRound, roundAt_of_lt c.W c.vars h64]
  rfl

/-- Settles O16: the new H is the accumulator's, and `microAccum_cases` are the two cases. -/
theorem accumAddsAndCompletes : Obligations.AccumAddsAndCompletes := by
  intro c hu hp
  refine ⟨accumulate c.H c.vars, ⟨rfl, rfl, rfl, rfl, rfl, rfl, rfl, rfl⟩, fun hj => ?_, fun hj => ?_⟩ <;>
    rw [coreStep_accum hu hp]
  · rcases microAccum_cases c with ⟨_, e⟩ | ⟨hn, _⟩
    · rw [e]
    · exact absurd hj hn
  · rcases microAccum_cases c with ⟨hn, _⟩ | ⟨_, e⟩
    · exact absurd hn hj
    · rw [e]

/-- SPLIT of a block that is left answers another state: the phase changes, or a cell is recorded. -/
theorem microSplit_ne {c : CoreState} (hu : c.uninit = none) (hp : c.phase = .split) : microSplit c ≠ c := by
  intro same
  rcases microSplit_cases c with ⟨_, _, _, e⟩ | ⟨_, _, _, e⟩ | ⟨_, e⟩ <;> rw [same] at e
  · cases hp.symm.trans (congrArg CoreState.phase e)
  · cases hu.symm.trans (congrArg CoreState.uninit e)
  · cases hp.symm.trans (congrArg CoreState.phase e)

/-- Settles O17: each micro-step changes the phase, the counter t, the block index or the recorded cell. -/
theorem coreStepsExactlyWhenBusy : Obligations.CoreStepsExactlyWhenBusy := by
  intro p c h hu
  refine ⟨coreStep_not_busy hu, fun hb => ?_⟩
  rcases Phase.busy_eq_true.mp hb with hp | hp | hp | hp | hp
  · exact ⟨_, coreStep_split hu hp, microSplit_ne hu hp⟩
  · exact ⟨_, coreStep_expand hu hp (h.expandRange hp), fun e => Nat.succ_ne_self c.t (congrArg CoreState.t e)⟩
  · exact ⟨_, coreStep_vars hu hp, fun e => nomatch hp.symm.trans (congrArg CoreState.phase e).symm⟩
  · exact ⟨_, coreStep_round hu hp (h.roundRange hp), fun e => Nat.succ_ne_self c.t (congrArg CoreState.t e)⟩
  · refine ⟨_, coreStep_accum hu hp, fun same => ?_⟩
    rcases microAccum_cases c with ⟨_, e⟩ | ⟨_, e⟩ <;>
      exact Nat.succ_ne_self c.j (congrArg CoreState.j (e.symm.trans same))

/-- Only SPLIT records a cell: an unwritten one of its block, below the latched length. -/
theorem coreStep_records {c c' : CoreState} {i : Nat} (h : coreStep c = .next c') (hi : c'.uninit = some i) :
    c.phase = .split ∧ splitWords c = .error i ∧ c' = { c with uninit := some i } := by
  obtain ⟨hu, e⟩ := coreStep_effect h
  have none_recorded (same : c'.uninit = c.uninit) : False := by
    rw [same, hu] at hi
    cases hi
  cases e with
  | split hp =>
    rcases microSplit_cases c with ⟨_, _, _, e⟩ | ⟨k, _, hk, e⟩ | ⟨_, e⟩
    · exact absurd (by rw [e]) none_recorded
    · rw [e, Option.some.injEq] at hi
      subst hi
      exact ⟨hp, hk, e⟩
    · exact absurd (by rw [e]; rfl) none_recorded
  | accum =>
    rcases microAccum_cases c with ⟨_, e⟩ | ⟨_, e⟩ <;> exact absurd (by rw [e]) none_recorded
  | none | expand | vars | round => exact absurd rfl none_recorded

/-- Settles O18: the recorded cell is one SPLIT's operands need, and STATUS does not depend on the record. -/
theorem unwrittenByteStopsTheCore : Obligations.UnwrittenByteStopsTheCore := by
  intro c c' i h _ hi
  obtain ⟨hp, hwords, rfl⟩ := coreStep_records h hi
  obtain ⟨hfrom, hto, hlen, hcell⟩ := splitWords_error hwords
  exact ⟨rfl, hp, hfrom, hto, hlen, hcell, rfl, rfl⟩

/-! ### SPLIT's operands, R106 (43_driver_commands.md) -/

/-- A list of computations answers the error of the first one that fails. -/
theorem mapM_eq_error {α β ε : Type} {f : α → Except ε β} {a : α} {e : ε} (ha : f a = .error e) (post : List α) :
    ∀ {pre : List α}, (∀ b ∈ pre, ∃ v, f b = .ok v) → (pre ++ a :: post).mapM f = .error e
  | [], _ => by simp [ha, bind, Except.bind]
  | b :: pre, h => by
    obtain ⟨⟨v, hv⟩, hpre⟩ := List.forall_mem_cons.mp h
    simp [hv, mapM_eq_error ha post hpre, bind, Except.bind]

/-- A padded word whose first missing byte is its r-th answers that byte's error. -/
theorem padWord_eq_error {c : CoreState} {w r k : Nat} (hr : r < 4) (he : padByte c (w + r) = .error k)
    (hok : ∀ r', r' < r → ∃ b, padByte c (w + r') = .ok b) : padWord c w = .error k := by
  match r, hr with
  | 0, _ => simp [padWord, show padByte c w = _ from he, bind, Except.bind]
  | 1, _ =>
    obtain ⟨b0, h0⟩ := hok 0 (by decide)
    simp [padWord, show padByte c w = _ from h0, he, bind, Except.bind]
  | 2, _ =>
    obtain ⟨b0, h0⟩ := hok 0 (by decide)
    obtain ⟨b1, h1⟩ := hok 1 (by decide)
    simp [padWord, show padByte c w = _ from h0, h1, he, bind, Except.bind]
  | 3, _ =>
    obtain ⟨b0, h0⟩ := hok 0 (by decide)
    obtain ⟨b1, h1⟩ := hok 1 (by decide)
    obtain ⟨b2, h2⟩ := hok 2 (by decide)
    simp [padWord, show padByte c w = _ from h0, h1, h2, he, bind, Except.bind]

/-- A padded byte below the latched length that is unwritten is the error of that cell. -/
theorem padByte_unwritten {c : CoreState} {i : Nat} (hi : i < c.latLen.toNat) (hcell : c.msg.read i = none) :
    padByte c i = .error i := by
  simp [padByte, hi, msgByte, hcell]

/-- SPLIT's words answer the first missing byte of the block: the words before its word are there. -/
theorem splitWords_eq_error {c : CoreState} {q r k : Nat} (hq : q < 16) (hr : r < 4)
    (he : padByte c (64 * c.j + 4 * q + r) = .error k)
    (hok : ∀ x, 64 * c.j ≤ x → x < 64 * c.j + 4 * q + r → ∃ b, padByte c x = .ok b) : splitWords c = .error k := by
  have hword : padWord c (64 * c.j + 4 * q) = .error k :=
    padWord_eq_error hr he fun r' hr' => hok _ (by omega) (by omega)
  have before : ∀ i ∈ List.range q, ∃ v, padWord c (64 * c.j + 4 * i) = .ok v := by
    intro i hi
    have hlt : i < q := List.mem_range.mp hi
    obtain ⟨b0, h0⟩ := hok (64 * c.j + 4 * i) (by omega) (by omega)
    obtain ⟨b1, h1⟩ := hok (64 * c.j + 4 * i + 1) (by omega) (by omega)
    obtain ⟨b2, h2⟩ := hok (64 * c.j + 4 * i + 2) (by omega) (by omega)
    obtain ⟨b3, h3⟩ := hok (64 * c.j + 4 * i + 3) (by omega) (by omega)
    exact ⟨_, padWord_ok h0 h1 h2 h3⟩
  have hrange : List.range 16 = List.range q ++ q :: (List.range 16).drop (q + 1) := by
    have hlen : q < (List.range 16).length := by rwa [List.length_range]
    calc List.range 16 = (List.range 16).take q ++ (List.range 16).drop q := (List.take_append_drop q _).symm
      _ = _ := by rw [List.take_range, Nat.min_eq_left hq.le, List.drop_eq_getElem_cons hlen, List.getElem_range]
  rw [splitWords, hrange]
  exact mapM_eq_error (f := fun i => padWord c (64 * c.j + 4 * i)) hword _ before

/-- R106 (43_driver_commands.md): the bytes of a loaded word are the bytes that SPLIT read for it. -/
theorem byteBe32_loadWords {g : Nat → Byte} (W : Vector Word 64) {i k : Nat} (hi : i < 16) (hk : k < 4) :
    byteBe32 (loadWords ((List.range 16).map fun i =>
      be32 (g (4 * i)) (g (4 * i + 1)) (g (4 * i + 2)) (g (4 * i + 3))) W)[i] k = g (4 * i + k) := by
  have hword : (loadWords ((List.range 16).map fun i =>
      be32 (g (4 * i)) (g (4 * i + 1)) (g (4 * i + 2)) (g (4 * i + 3))) W)[i] =
      be32 (g (4 * i)) (g (4 * i + 1)) (g (4 * i + 2)) (g (4 * i + 3)) := by
    simp [getElem_loadWords, hi]
  rw [hword]
  exact byteBe32_be32_of_bytes (fun k => g (4 * i + k)) hk

theorem microSplit_loads {c : CoreState} {ws : List Word} (hj : c.j < c.nblk) (h : splitWords c = .ok ws) :
    microSplit c = { c with W := loadWords ws c.W, t := 16, phase := .expand } := by
  simp only [microSplit, if_pos hj, h]

theorem microSplit_records {c : CoreState} {i : Nat} (hj : c.j < c.nblk) (h : splitWords c = .error i) :
    microSplit c = { c with uninit := some i } := by
  simp only [microSplit, if_pos hj, h]

/-- Settles O11: SPLIT enters FAULT without a block, records the first missing byte, or loads the bytes it reads. -/
theorem splitLoadsTheBlock : Obligations.SplitLoadsTheBlock := by
  intro c hu hp
  rw [coreStep_split hu hp]
  refine ⟨fun hj => ?_, fun hj i hfrom hto hlen hcell hlowest => ?_, fun hj hwritten => ?_⟩
  · rw [microSplit, if_neg hj]
    rfl
  · have hpos : 64 * c.j + 4 * ((i - 64 * c.j) / 4) + (i - 64 * c.j) % 4 = i := by omega
    have hwords : splitWords c = .error i :=
      splitWords_eq_error (q := (i - 64 * c.j) / 4) (r := (i - 64 * c.j) % 4) (by omega) (by omega)
        (by rw [hpos]; exact padByte_unwritten hlen hcell)
        fun x hx hlt => padByte_ok fun _ => hlowest x hx (by omega)
    rw [microSplit_records hj hwords]
  · have bytes (k : Nat) : ∃ b, k < 64 → padByte c (64 * c.j + k) = .ok b := by
      by_cases hk : k < 64
      · obtain ⟨b, hb⟩ := padByte_ok (hwritten (64 * c.j + k) (by omega) (by omega))
        exact ⟨b, fun _ => hb⟩
      · exact ⟨0#8, fun h => absurd h hk⟩
    choose g hg using bytes
    refine ⟨_, congrArg _ (microSplit_loads hj (splitWords_ok hg)), fun i hi h16 => ?_, fun i hi k hk => ?_⟩
    · rw [getElem_loadWords _ _ _ hi, if_neg (by omega)]
    · rw [Nat.add_assoc, hg _ (by omega)]
      exact congrArg Except.ok (byteBe32_loadWords c.W hi hk).symm

/-! # Proofs: the digest persists -/

/-- R117 (43_driver_commands.md): at an idle core a host write keeps H, DONE and the phase, or is the acceptance of a
HASH. -/
theorem WriteEffect.of_idle {p : Params} {c c' : CoreState} (e : WriteEffect p c c') (hp : c.phase = .idle) :
    (c'.H = c.H ∧ c'.done = c.done ∧ c'.phase = .idle) ∨
      (c.msgLen.toNat ≤ p.msgMaxBytes ∧ c' = acceptHash c) := by
  cases e with
  | none | msgLen | msgWord => exact .inl ⟨rfl, rfl, hp⟩
  | cmd e =>
    cases e with
    | hash _ hl => exact .inr ⟨hl, rfl⟩
    | ignored | busy | illegal | nop | long => exact .inl ⟨rfl, rfl, hp⟩

/-- Settles O47: an idle core's own turn passes, and a host write keeps the digest or is the acceptance. -/
theorem digestPersists : Obligations.DigestPersists := by
  intro s t h hn hp
  rcases step_effect_of_ne_reset h hn with ⟨hm, e⟩ | ⟨-, hc⟩
  · rcases e.of_idle hp with kept | ⟨hl, e⟩
    · exact .inl kept
    · rw [e]
      exact .inr ⟨hl, rfl, rfl, rfl, hm⟩
  · obtain ⟨hu, -⟩ := coreStep_effect hc
    rw [coreStep_not_busy hu (by rw [hp]; rfl), Host.Outcome.next.injEq] at hc
    rw [← hc]
    exact .inl ⟨rfl, rfl, hp⟩

/-! # Proofs: the digest's bytes and digits -/

/-- Where every element becomes n entries, they stand at n i to n i + n - 1. -/
theorem getElem?_flatMap_of_length {α β : Type} {f : α → List β} {n : Nat} (hf : ∀ a, (f a).length = n)
    {k : Nat} (hk : k < n) : ∀ {l : List α} {i : Nat} (hi : i < l.length),
    (l.flatMap f)[n * i + k]? = (f l[i])[k]?
  | a :: l, 0, _ => by
    rw [List.flatMap_cons, List.getElem?_append_left (by rw [hf]; omega), Nat.mul_zero, Nat.zero_add]
    rfl
  | a :: l, i + 1, hi => by
    have hpos : n * (i + 1) + k = n + (n * i + k) := by rw [Nat.mul_succ]; omega
    rw [List.flatMap_cons, List.getElem?_append_right (by rw [hf, hpos]; omega), hf, hpos, Nat.add_sub_cancel_left]
    exact getElem?_flatMap_of_length hf hk (Nat.lt_of_succ_lt_succ hi)

theorem length_flatMap_of_length {α β : Type} {f : α → List β} {n : Nat} (hf : ∀ a, (f a).length = n) (l : List α) :
    (l.flatMap f).length = l.length * n := by
  simp [List.length_flatMap, hf]

theorem getElem?_bytesBe32 (w : Word) {k : Nat} (hk : k < 4) : (bytesBe32 w)[k]? = some (byteBe32 w k) := by
  match k, hk with
  | 0, _ | 1, _ | 2, _ | 3, _ => rfl

theorem length_hex8 (w : Word) : (hex8 w).length = 8 := by simp [hex8]

/-- R121 (43_driver_commands.md): each of the sixteen values has its digit. -/
theorem getElem?_hexDigits (n : BitVec 4) :
    ['0', '1', '2', '3', '4', '5', '6', '7', '8', '9', 'a', 'b', 'c', 'd', 'e', 'f'][n.toNat]? = some (hexDigit n) := by
  rw [hexDigit, List.getD_eq_getElem _ _ n.isLt, List.getElem?_eq_getElem]

/-- Settles O30: word i becomes the four bytes at 4i and the eight digits at 8i. -/
theorem digestBytesAndHex : Obligations.DigestBytesAndHex := by
  intro H
  refine ⟨?_, ?_, fun i hi k hk => ?_, fun i hi k hk => ?_⟩
  · rw [digestBytes, length_flatMap_of_length length_bytesBe32, Vector.length_toList]
  · rw [hex, length_flatMap_of_length length_hex8, Vector.length_toList]
  · have hlen : i < H.toList.length := by rwa [Vector.length_toList]
    rw [digestBytes, getElem?_flatMap_of_length length_bytesBe32 hk hlen, getElem?_bytesBe32 _ hk,
      Vector.getElem_toList]
    rfl
  · have hlen : i < H.toList.length := by rwa [Vector.length_toList]
    rw [hex, getElem?_flatMap_of_length length_hex8 hk hlen, getElem?_hexDigits, Vector.getElem_toList, hex8,
      List.getElem?_map, List.getElem?_range hk]
    rfl

end Sys2Proof.Machine

/-! # Proofs: rejections, the error status, and FAULT -/

namespace Sys2Proof.Machine

/-! ### Rejection, R124 to R126, R129 (60_exceptions.md) -/

/-- What a CMD write can do to the error status: at a faulted core it is ignored, it is rejected with one of the codes
of R124 to R126 (60_exceptions.md), or at an idle core it is accepted. -/
theorem CmdEffect.ignored_or_rejected_or_accepted {p : Params} {c c' : CoreState} (e : CmdEffect p c c') :
    (c.phase = .faulted ∧ c' = c) ∨
    (∃ code, c' = reject code c ∧ (code = 0x1#4 ∨ code = 0x2#4 ∨ code = 0x3#4)) ∨
    (c.phase = .idle ∧ (c' = clearError c ∨ c' = acceptHash c)) := by
  cases e with
  | ignored hf => exact .inl ⟨hf, rfl⟩
  | busy => exact .inr (.inl ⟨_, rfl, .inr (.inl rfl)⟩)
  | illegal => exact .inr (.inl ⟨_, rfl, .inl rfl⟩)
  | long => exact .inr (.inl ⟨_, rfl, .inr (.inr rfl)⟩)
  | nop hp => exact .inr (.inr ⟨hp, .inl rfl⟩)
  | hash hp => exact .inr (.inr ⟨hp, .inr rfl⟩)

/-- Settles O9: outside FAULT a CMD write that leaves ERR at 1 is a rejection, for acceptance clears ERR. -/
theorem rejectionsArePrecise : Obligations.RejectionsArePrecise := by
  intro v s t hf h herr
  obtain ⟨c, hc, e⟩ := cmdWrite_effect v s
  rw [hc, Host.Outcome.next.injEq] at h
  subst h
  rcases e.ignored_or_rejected_or_accepted with ⟨hf', _⟩ | ⟨code, rfl, hcode⟩ | ⟨_, rfl | rfl⟩
  · exact absurd hf' hf
  · exact ⟨rfl, hcode⟩
  · cases herr
  · cases herr

/-! ### A rejection and the micro-steps, R125 (60_exceptions.md) -/

theorem cmdWrite_busy {s : State} (hb : s.core.phase.busy = true) (v : Word) :
    cmdWrite v s = .next { s with core := reject ErrCode.cmdWhileBusy s.core } := by
  obtain ⟨perform, hgate⟩ := cmdWrite_eq_gate v
  rw [hgate, commandGate_busy _ hb]

theorem microSplit_no_block {c : CoreState} (hj : ¬ c.j < c.nblk) :
    microSplit c = enterFault ErrCode.internal c := by
  rw [microSplit, if_neg hj]

theorem microSplit_reject (code : BitVec 4) (c : CoreState) :
    microSplit (reject code c) = reject code (microSplit c) := by
  have words : splitWords (reject code c) = splitWords c := splitWords_congr rfl rfl rfl rfl
  rcases microSplit_cases c with ⟨ws, hj, hw, e⟩ | ⟨i, hj, hw, e⟩ | ⟨hj, e⟩ <;> rw [e]
  · exact microSplit_loads hj (words.trans hw)
  · exact microSplit_records hj (words.trans hw)
  · exact microSplit_no_block hj

theorem microAccum_reject (code : BitVec 4) (c : CoreState) :
    microAccum (reject code c) = reject code (microAccum c) := by
  rw [microAccum, microAccum, apply_ite (reject code)]
  rfl

/-- R125 (60_exceptions.md): a micro-step neither reads nor writes ERR and ERRCODE. -/
theorem coreStep_reject {c c' : CoreState} (code : BitVec 4) (h : coreStep c = .next c') :
    coreStep (reject code c) = .next (reject code c') := by
  obtain ⟨hu, e⟩ := coreStep_effect h
  have hu' : (reject code c).uninit = none := hu
  cases e with
  | none hb => exact coreStep_not_busy hu' hb
  | split hp => rw [coreStep_split hu' hp, microSplit_reject]
  | expand hp ht => exact coreStep_expand hu' hp ht
  | vars hp => exact coreStep_vars hu' hp
  | round hp ht => exact coreStep_round hu' hp ht
  | accum hp => rw [coreStep_accum hu' hp, microAccum_reject]

/-- Settles O8: the gate rejects every word, a command's among them, and the rejection commutes with the micro-step. -/
theorem busyCommandsAreRejected : Obligations.BusyCommandsAreRejected := by
  intro s i hb
  refine ⟨?_, cmdWrite_busy hb, fun c => coreStep_reject ErrCode.cmdWhileBusy⟩
  rw [← cmdWrite_command (decode_encode i) s]
  exact cmdWrite_busy hb (encode i)

/-! ### The error status is sticky, R128 (60_exceptions.md) -/

/-- What a host write can do to the error status: nothing, record an error, or at an idle core clear it by NOP or the
acceptance of a HASH. -/
theorem WriteEffect.error_kept_or_recorded_or_cleared {p : Params} {c c' : CoreState} (e : WriteEffect p c c') :
    (c'.err = c.err ∧ c'.errCode = c.errCode) ∨ (c'.err = true ∧ c'.errCode ≠ 0x0#4) ∨
    (c.phase = .idle ∧ (c' = clearError c ∨ c' = acceptHash c)) := by
  cases e with
  | none | msgLen | msgWord => exact .inl ⟨rfl, rfl⟩
  | cmd e =>
    rcases e.ignored_or_rejected_or_accepted with ⟨_, rfl⟩ | ⟨code, rfl, hcode⟩ | accepted
    · exact .inl ⟨rfl, rfl⟩
    · refine .inr (.inl ⟨rfl, ?_⟩)
      rw [reject_errCode]
      rcases hcode with rfl | rfl | rfl <;> decide
    · exact .inr (.inr accepted)

/-- Settles O48: of the steps that are no reset, a micro-step keeps the error status, and a host write that clears it is
NOP or the acceptance of a HASH. -/
theorem errorIsSticky : Obligations.ErrorIsSticky := by
  refine ⟨fun i s hp hfit => ?_, fun s t h hn cleared => ?_⟩
  · cases i with
    | nop => exact ⟨_, exec_nop_idle hp, rfl, rfl⟩
    | hash => exact ⟨_, exec_hash_accepted hp (hfit rfl), rfl, rfl⟩
  · have not_kept : ¬ (t.core.err = s.core.err ∧ t.core.errCode = s.core.errCode) := by
      rintro ⟨herr, hcode⟩
      simp [herr, hcode] at cleared
    rcases step_effect_of_ne_reset h hn with ⟨hm, e⟩ | ⟨_, hc⟩
    · rcases e.error_kept_or_recorded_or_cleared with kept | ⟨herr, hcode⟩ | ⟨hp, e | e⟩
      · exact absurd kept not_kept
      · simp [herr, hcode] at cleared
      · rw [e]
        exact ⟨hm, hp, rfl, rfl, .inl rfl⟩
      · rw [e]
        exact ⟨hm, hp, rfl, rfl, .inr rfl⟩
    · obtain ⟨-, -, -, -, -, kept⟩ := coreStep_frame hc
      exact absurd kept not_kept

/-! ### FAULT, R130, R132 (60_exceptions.md) -/

/-- R130 (60_exceptions.md): the micro-step that enters FAULT is SPLIT without a block left. -/
theorem coreStep_enters_fault {c c' : CoreState} (h : coreStep c = .next c') (hf : c.phase ≠ .faulted)
    (hf' : c'.phase = .faulted) : c.phase = .split ∧ ¬ c.j < c.nblk ∧ c' = enterFault ErrCode.internal c := by
  obtain ⟨-, e⟩ := coreStep_effect h
  cases e with
  | none => exact absurd hf' hf
  | split hp =>
    rcases microSplit_cases c with ⟨_, _, _, e⟩ | ⟨_, _, _, e⟩ | ⟨hj, e⟩ <;> rw [e] at hf' ⊢
    · cases hf'
    · exact absurd hf' hf
    · exact ⟨hp, hj, rfl⟩
  | expand => rcases microExpand_cases c with ⟨_, e⟩ | ⟨_, e⟩ <;> rw [e] at hf' <;> cases hf'
  | vars => cases hf'
  | round => rcases microRound_cases c with ⟨_, e⟩ | ⟨_, e⟩ <;> rw [e] at hf' <;> cases hf'
  | accum => rcases microAccum_cases c with ⟨_, e⟩ | ⟨_, e⟩ <;> rw [e] at hf' <;> cases hf'

/-- R59 (30_encoding.md), R130 (60_exceptions.md): STATUS of a core that has entered FAULT, whatever ERR and ERRCODE. -/
theorem statusWord_enterFault_internal (c : CoreState) :
    statusWord (enterFault ErrCode.internal c) = 0x000000FC#32 := by
  simp [statusWord, errCodeShown, errShown, Phase.fault, Phase.busy, ErrCode.internal, flagWord]

/-- Settles O19: SPLIT without a block left enters FAULT, and no other micro-step does. -/
theorem faultEntryShowsInternal : Obligations.FaultEntryShowsInternal := by
  refine ⟨fun c hu hp hj => ?_, fun c c' h hf hf' => ?_⟩
  · rw [coreStep_split hu hp, microSplit_no_block hj]
    rfl
  · obtain ⟨hp, hj, rfl⟩ := coreStep_enters_fault h hf hf'
    exact ⟨hp, hj, rfl, statusWord_enterFault_internal c⟩

/-- Every run from a state that meets the invariant keeps it. -/
theorem State.Inv.run {n : Nat} {s t : State} (hs : s.Inv) (h : Sys2Proof.core.run n s = .next t) : t.Inv :=
  run_induction stepKeepsTheInvariant hs h

/-- Settles O52: the reset state meets the invariant on any platform, with any program and schedule, and the invariant
excludes FAULT. -/
theorem faultIsUnreachable : Obligations.FaultIsUnreachable := by
  intro p prog sched n t hw h
  exact (State.Inv.run ⟨hw, CoreState.Inv.atReset p⟩ h).core.notFaulted

end Sys2Proof.Machine

/-! # Proofs: reset, the only way out of FAULT and the only way to unwrite a cell -/

namespace Sys2Proof.Machine

/-! ### What steps other than reset keep, R131 (60_exceptions.md), R141 (70_reset_and_hazards.md) -/

section
variable {p : Params} {c c' : CoreState}

/-- R131 (60_exceptions.md): a faulted core ignores every host write. -/
theorem WriteEffect.of_faulted (e : WriteEffect p c c') (hf : c.phase = .faulted) : c' = c := by
  have not_idle : c.phase ≠ .idle := by simp [hf]
  cases e with
  | none => rfl
  | msgLen _ hp | msgWord _ _ _ _ _ hp => exact absurd hp not_idle
  | cmd e =>
    cases e with
    | ignored => rfl
    | busy hb => rw [hf] at hb; cases hb
    | illegal hp | nop hp | long hp | hash hp => exact absurd hp not_idle

/-- R112 (43_driver_commands.md): the core's agent has no micro-step when the phase is FAULTED; its turn passes. -/
theorem coreStep_of_faulted (hc : coreStep c = .next c') (hf : c.phase = .faulted) : c' = c := by
  obtain ⟨hu, -⟩ := coreStep_effect hc
  rw [coreStep_not_busy hu (by rw [hf]; rfl), Host.Outcome.next.injEq] at hc
  exact hc.symm

/-- R43 (20_memory.md): a host write stores into message cells or leaves them alone; it makes none unwritten. -/
theorem WriteEffect.keeps_written (e : WriteEffect p c c') {i : Nat} (hw : (c.msg.read i).isSome) :
    (c'.msg.read i).isSome := by
  cases e with
  | none | msgLen => exact hw
  | msgWord => exact Memory.isSome_read_writeWord _ _ i _ hw
  | cmd e => cases e <;> exact hw

end

/-- Settles O45: a turn of the host or of the core changes nothing in FAULT; only a window write touches a message
cell, and what it stores is written. -/
theorem onlyResetLeavesFault : Obligations.OnlyResetLeavesFault := by
  intro s t h hn
  rcases step_effect_of_ne_reset h hn with ⟨-, e⟩ | ⟨-, hc⟩
  · exact ⟨e.of_faulted, fun _ => e.keeps_written⟩
  · obtain ⟨hmsg, -⟩ := coreStep_frame hc
    exact ⟨coreStep_of_faulted hc, fun _ hw => by rwa [hmsg]⟩

/-! ### Reset at any time, R140 (70_reset_and_hazards.md) -/

/-- R140 (70_reset_and_hazards.md): the turn of reset is the platform's reset, whatever the core is doing. -/
theorem step_of_reset {s : State} (hm : nextMove s = .reset) : step s = .next (platformReset (takeTurn s)) := by
  rw [step, hm, runMove]

/-- Settles O44: the turn of reset puts the core in the reset state, whose values are those of R36, and touches neither
the host nor the parameters. -/
theorem platformResetAtAnyTime : Obligations.PlatformResetAtAnyTime := by
  intro s hm
  obtain ⟨hphase, hdone, herr, herrCode, hfCode, hmsgLen, hH, hmsg, -⟩ := resetState
  exact ⟨_, step_of_reset hm, takeTurn_host s, takeTurn_params s, hphase, hdone, herr, herrCode, hfCode, hmsgLen, hH,
    hmsg, rfl⟩

end Sys2Proof.Machine
